-- ==== Sys2Proof/Word.lean ====
section
/-! DEFINITION. The word types of OTPX: a window element is 8 bits wide, a register, a command word and the data bus
are 32 bits wide (spec/00_scope.md R8, R10). -/

namespace Sys2Proof

/-- One element of a byte window (spec/00_scope.md R11). -/
abbrev Byte := BitVec 8

/-- A register value, a command word, or the 32 data bits of a transaction (spec/20_memory.md R34). -/
abbrev Word := BitVec 32

/-- A byte offset within the 4096-byte register window (spec/20_memory.md R33). -/
abbrev Offset := BitVec 12

end Sys2Proof
end

