-- ==== Sys2Proof/Syntax.lean ====
section
/-! DEFINITION. What the two agents are told to do: the nine commands of the opcode table (spec/30_encoding.md R52), the
host's bus transactions (spec/20_memory.md R34), its program notation (R57, R58), and the turns of the interleaving (R46). -/

namespace Sys2Proof

/-- A command, one constructor per row of spec/opcode_table.json. No command has an operand field: every operand is an
implicit register or window (spec/30_encoding.md R55). -/
inductive Instr
  /-- R80: completes with no effect but STATUS. -/
  | nop
  /-- R62: Base32 encode BBUF into TBUF. -/
  | b32enc
  /-- R66: Base32 decode TBUF into BBUF. -/
  | b32dec
  /-- R74: dynamic truncation of DIGEST. -/
  | trunc
  /-- R75: decimal reduction of FULLCODE. -/
  | decimal
  /-- R78: Steam reduction of FULLCODE. -/
  | steam
  /-- R76: TRUNC then DECIMAL, all or nothing. -/
  | hotp
  /-- R79: SHA1 truncation then STEAM, all or nothing. -/
  | steamcode
  /-- R81: reset every register. -/
  | sreset
  deriving DecidableEq, Repr

/-- The size of a transaction: 1, 2 or 4 bytes (spec/20_memory.md R34). -/
inductive Size
  | byte
  | half
  | word
  deriving DecidableEq, Repr

/-- The size in bytes. -/
def Size.bytes : Size → Nat
  | .byte => 1
  | .half => 2
  | .word => 4

/-- A host bus transaction: kind, offset, size and, for a write, 32 bits of data (spec/20_memory.md R34). -/
inductive BusOp
  | read (a : Offset) (n : Size)
  | write (a : Offset) (n : Size) (data : Word)
  deriving DecidableEq, Repr

/-- One line of a host program: a transaction (spec/30_encoding.md R57), or the loop `WAIT`, which reads STATUS until BUSY
is 0 (R58). The other pseudo-operations expand to these (Machine/HostProgram.lean). -/
inductive HostOp
  | txn (t : BusOp)
  | wait
  deriving DecidableEq, Repr

/-- Who moves in one step: the host with its next transaction, the engine with a completion if one is enabled, or the reset
pin with an edge (spec/00_scope.md R7, spec/20_memory.md R46, spec/60_exceptions.md R91). -/
inductive Turn
  | host
  | engine
  | resetLow
  | resetHigh
  deriving DecidableEq, Repr

/-- The response code of a transaction (spec/20_memory.md R34). -/
inductive Resp
  | okay
  | error
  deriving DecidableEq, Repr

/-- The answer to a transaction: a code and, for a read, 32 bits of data (spec/20_memory.md R34). -/
inductive Response
  | read (r : Resp) (data : Word)
  | write (r : Resp)
  deriving DecidableEq, Repr

end Sys2Proof
end

