-- ==== Sys2Proof/Decode.lean ====
section
/-! DEFINITION. Decoding a command word, total and rejecting by name (spec/30_encoding.md R51 to R54), the encoder beside
it, and the decoder on the opcode table's own bit numbering. -/

namespace Sys2Proof

/-- Why a sequence of bits is no command. Either kind of illegal word completes with ILLEGAL_CMD (R54); a CMD access of
another size is a bus error and starts nothing (R56). -/
inductive DecodeError
  /-- RSV is not 0. -/
  | reservedBits
  /-- OP is outside the opcode map. -/
  | unassignedOpcode
  /-- Not exactly one 4-byte word. -/
  | notOneWord
  deriving DecidableEq, Repr

/-- The OP field, bits 7:0 (spec/30_encoding.md R51). -/
def opField (w : Word) : Byte := w.extractLsb' 0 8

/-- The RSV field, bits 31:8 (spec/30_encoding.md R51). -/
def rsvField (w : Word) : BitVec 24 := w.extractLsb' 8 24

/-- The opcode map on the OP field alone (spec/30_encoding.md R53). -/
def decodeOpcode (op : Byte) : Except DecodeError Instr :=
  if op = 0x00 then .ok .nop
  else if op = 0x01 then .ok .b32enc
  else if op = 0x02 then .ok .b32dec
  else if op = 0x10 then .ok .trunc
  else if op = 0x11 then .ok .decimal
  else if op = 0x12 then .ok .steam
  else if op = 0x13 then .ok .hotp
  else if op = 0x14 then .ok .steamcode
  else if op = 0xFF then .ok .sreset
  else .error .unassignedOpcode

/-- `Decode` of R53: reserved bits first, then the opcode. -/
def decodeWord (w : Word) : Except DecodeError Instr :=
  if rsvField w = 0 then decodeOpcode (opField w) else .error .reservedBits

/-- The command word that the four bytes of a CMD write carry, byte k in lane k (spec/20_memory.md R36). -/
def wordOfBytes (b0 b1 b2 b3 : Byte) : Word := b3 ++ b2 ++ b1 ++ b0

/-- Decoding of bytes: exactly one word, no prefixes, no shorter or longer forms (spec/30_encoding.md R56). -/
def decodeBytes : List Byte → Except DecodeError Instr
  | [b0, b1, b2, b3] => decodeWord (wordOfBytes b0 b1 b2 b3)
  | _ => .error .notOneWord

/-- The words of the opcode map (spec/30_encoding.md R52). -/
def encode : Instr → Word
  | .nop => 0x00000000
  | .b32enc => 0x00000001
  | .b32dec => 0x00000002
  | .trunc => 0x00000010
  | .decimal => 0x00000011
  | .steam => 0x00000012
  | .hotp => 0x00000013
  | .steamcode => 0x00000014
  | .sreset => 0x000000FF

/-- The word SRESET is recognised by, at the write itself (spec/42_control.md R81). -/
def sresetWord : Word := 0x000000FF

/-- The four bytes of a word, byte k in lane k (spec/20_memory.md R36). -/
def bytesOfWord (w : Word) : List Byte :=
  [w.extractLsb' 0 8, w.extractLsb' 8 8, w.extractLsb' 16 8, w.extractLsb' 24 8]

/-- The command word of a table row's bits: bits at and above `nbits` are 0. -/
def tableWord (nbits w : Nat) : Word := BitVec.ofNat 32 (w % 2 ^ nbits)

/-- The command the decoder reads from an opcode-table word (bit 0 is the least significant bit of the one word). -/
def decodeTableWord (nbits w : Nat) : Option Instr :=
  match decodeBytes (bytesOfWord (tableWord nbits w)) with
  | .ok i => some i
  | .error _ => none

end Sys2Proof
end

