-- ==== Sys2Proof/Config.lean ====
section
/-! DEFINITION. What an implementation fixes (spec/00_scope.md R8) and the one family of free values
(spec/93_implementation_defined.md U1). -/

namespace Sys2Proof

/-- The buffer sizes of one implementation (spec/00_scope.md R8). State holds them, so every statement over states covers
every legal pair of sizes (log 4). -/
structure Params where
  /-- BBUF_SIZE: bytes in BBUF. -/
  bbufSize : Nat
  /-- TBUF_SIZE: bytes in TBUF. -/
  tbufSize : Nat
  deriving DecidableEq, Repr

/-- The default sizes (spec/00_scope.md R8). -/
def Params.default : Params := ⟨320, 512⟩

namespace Config

/-- FREE VALUE, no body: what a RAM byte holds after hardware reset, by the number of the draw and the offset of the byte
(spec/93_implementation_defined.md U1: one draw per byte at reset; log 2). -/
opaque freeByte : Nat → Nat → Byte

/-- PARAMETER, no body: the 4 KiB page the platform maps the window at (spec/00_scope.md R8, U14; log 15). -/
opaque basePage : Nat

/-- PARAMETER, no body: the platform's interrupt line that `irq` drives (spec/93_implementation_defined.md U13; log 15). -/
opaque irqLine : Nat

/-- BASE, the host address of the register window, 4 KiB aligned (spec/00_scope.md R8). -/
def base : Nat := 4096 * basePage

end Config

end Sys2Proof
end

