-- ==== Sys2Proof/Machine/State.lean ====
section
/-! DEFINITION. The state of OTPX (spec/10_state.md R17, R31), the agents' pending work, why the machine can stop, and
the state right after hardware reset (R32). -/

namespace Sys2Proof.Machine

/-- The RAM of the byte windows DIGEST, BBUF and TBUF: the bytes written so far, by window offset, in one canonical form:
offsets strictly rising. An unlisted offset has no written byte (`none`); the machine reads the free value of its draw there
(log 2). -/
abbrev Memory := List Host.Cell

/-- CTRL by its fields; bits 31:9 are reserved and are not stored (spec/10_state.md R20, spec/20_memory.md R43; log 14). -/
structure Ctrl where
  /-- Bits 2:0. -/
  alg : BitVec 3
  /-- Bit 3. -/
  strict : Bool
  /-- Bits 7:4. -/
  digits : BitVec 4
  /-- Bit 8. -/
  irqEn : Bool
  deriving DecidableEq, Repr

/-- STATUS by its fields; bits 7:4 and 31:16 are reserved and are not stored (spec/10_state.md R22; log 14). -/
structure Status where
  /-- Bit 0. -/
  busy : Bool
  /-- Bit 1. -/
  done : Bool
  /-- Bit 2. -/
  err : Bool
  /-- Bit 3. -/
  wovr : Bool
  /-- Bits 15:8. -/
  errcode : Byte
  deriving DecidableEq, Repr

/-- Everything the spec gives the machine, and what its two agents have still to do. -/
structure State where
  /-- BBUF_SIZE and TBUF_SIZE, which PARAMS reads (spec/10_state.md R19); fixed for the machine, no step changes them. -/
  params : Params
  /-- CTRL (R20). -/
  ctrl : Ctrl
  /-- STATUS (R22). -/
  status : Status
  /-- KEYLEN (R24). -/
  keylen : Word
  /-- OFFSET bits 3:0 (R25). -/
  offset : BitVec 4
  /-- FULLCODE bits 30:0 (R26). -/
  fullcode : BitVec 31
  /-- CODELEN bits 4:0 (R27). -/
  codelen : BitVec 5
  /-- BLEN bits 15:0 (R29). -/
  blen : BitVec 16
  /-- TLEN bits 15:0 (R30). -/
  tlen : BitVec 16
  /-- CODE[0..15] (R27). -/
  code : Vector Byte 16
  /-- The written bytes of DIGEST, BBUF and TBUF (R28, R29, R30). -/
  mem : Memory
  /-- The latched command word (R31). -/
  latched : Word
  /-- The reset input `rst_n`: true is high (spec/20_memory.md R34). -/
  rstN : Bool
  /-- The MODEL'S OWN: which draw of unspecified RAM bytes this is (log 2, log 3). -/
  draw : Nat
  /-- The MODEL'S OWN: the host's pending operations, in program order (spec/20_memory.md R45). -/
  host : List HostOp
  /-- The MODEL'S OWN: who moves next (spec/20_memory.md R46; log 1). -/
  schedule : List Turn
  /-- The MODEL'S OWN: the response to the host's last transaction (log 7). -/
  response : Option Response
  deriving DecidableEq, Repr

/-- Why the machine stops. -/
inductive Fault
  /-- Raised by `step` when the host's turn comes with a transaction pending while `rst_n` is low: the spec gives such a
  transaction no step (spec/70_reset_and_hazards.md R102, spec/93_implementation_defined.md U3). Safe. -/
  | transactionDuringReset
  deriving DecidableEq, Repr

/-- Why an instruction has no meaning. -/
inductive Refusal
  /-- Raised only by an arm of `exec` whose instruction has no meaning yet; no arm does. Safe. -/
  | notModelled (mnemonic : String)
  deriving DecidableEq, Repr

/-- CTRL after reset, 0x00000060 (spec/10_state.md R20, R32). -/
def Ctrl.reset : Ctrl := { alg := 0, strict := false, digits := 6, irqEn := false }

/-- STATUS after reset, 0x00000000 (spec/10_state.md R22, R32). -/
def Status.reset : Status := { busy := false, done := false, err := false, wovr := false, errcode := 0x00 }

/-- The state right after hardware reset (spec/10_state.md R32), nothing placed: no RAM byte written, no host program. -/
def State.reset : State where
  params := Params.default
  ctrl := Ctrl.reset
  status := Status.reset
  keylen := 0
  offset := 0
  fullcode := 0
  codelen := 0
  blen := 0
  tlen := 0
  code := Vector.replicate 16 0x00
  mem := []
  latched := 0x00000000
  rstN := true
  draw := 0
  host := []
  schedule := []
  response := none

end Sys2Proof.Machine
end

