-- ==== Sys2Proof/Machine/Flags.lean ====
section
/-! DEFINITION. Every way STATUS changes (spec/10_state.md R22, R23): acceptance, completion, a host write, a dropped write;
the error codes (spec/60_exceptions.md R85); and the layout of STATUS and CTRL as 32-bit values. -/

namespace Sys2Proof.Machine

/-- The errors a command can raise (spec/60_exceptions.md R85). -/
inductive ErrorKind
  | illegalCmd
  | unsupportedAlgorithm
  | invalidSecret
  | noncompliant
  | digestRange
  | invalidLength
  | formatLength
  | formatChar
  | formatPadpos
  | formatPad
  | bufferLength
  deriving DecidableEq, Repr

/-- The value of ERRCODE for an error (spec/60_exceptions.md R85). -/
def errorCode : ErrorKind → Byte
  | .illegalCmd => 0x01
  | .unsupportedAlgorithm => 0x02
  | .invalidSecret => 0x03
  | .noncompliant => 0x04
  | .digestRange => 0x05
  | .invalidLength => 0x06
  | .formatLength => 0x10
  | .formatChar => 0x11
  | .formatPadpos => 0x12
  | .formatPad => 0x13
  | .bufferLength => 0x20

/-- STATUS at acceptance: BUSY set, DONE, ERR and ERRCODE cleared, WOVR kept (spec/60_exceptions.md R86). -/
def acceptStatus (st : Status) : Status :=
  { st with busy := true, done := false, err := false, errcode := 0x00 }

/-- STATUS at a successful completion (spec/60_exceptions.md R87). -/
def successStatus (st : Status) : Status :=
  { st with busy := false, done := true, err := false, errcode := 0x00 }

/-- STATUS at a failing completion (spec/60_exceptions.md R87, R88). -/
def errorStatus (e : ErrorKind) (st : Status) : Status :=
  { st with busy := false, done := true, err := true, errcode := errorCode e }

/-- STATUS after a dropped host write (spec/70_reset_and_hazards.md R107). -/
def overrunStatus (st : Status) : Status := { st with wovr := true }

/-- STATUS after a host write of `v`: write one to clear on DONE, ERR and WOVR, and clearing ERR clears ERRCODE too
(spec/10_state.md R22). -/
def clearStatus (v : Word) (st : Status) : Status :=
  { st with
    done := st.done && !v.getLsbD 1
    err := st.err && !v.getLsbD 2
    errcode := if v.getLsbD 2 then 0x00 else st.errcode
    wovr := st.wovr && !v.getLsbD 3 }

/-- STATUS as a host reads it (spec/10_state.md R22). -/
def statusWord (st : Status) : Word :=
  (0 : BitVec 16) ++ st.errcode ++ (0 : BitVec 4) ++ BitVec.ofBool st.wovr ++ BitVec.ofBool st.err ++ BitVec.ofBool st.done
    ++ BitVec.ofBool st.busy

/-- CTRL as a host reads it (spec/10_state.md R20). -/
def ctrlWord (c : Ctrl) : Word :=
  (0 : BitVec 23) ++ BitVec.ofBool c.irqEn ++ c.digits ++ BitVec.ofBool c.strict ++ c.alg

/-- CTRL after a host write of `v`; bits 31:9 are ignored (spec/10_state.md R20, spec/20_memory.md R43). -/
def ctrlOfWord (v : Word) : Ctrl where
  alg := v.extractLsb' 0 3
  strict := v.getLsbD 3
  digits := v.extractLsb' 4 4
  irqEn := v.getLsbD 8

/-- The interrupt output, `CTRL.IRQ_EN AND STATUS.DONE` (spec/60_exceptions.md R92). -/
def State.irq (s : State) : Bool := s.ctrl.irqEn && s.status.done

/-- The platform's interrupt line and the level OTPX drives on it (spec/93_implementation_defined.md U13; log 15). -/
def State.irqRoute (s : State) : Nat × Bool := (Config.irqLine, s.irq)

end Sys2Proof.Machine
end

