-- ==== Sys2Proof/Machine/Ops.lean ====
section
/-! DEFINITION. The shared operations: RAM bytes, the address map (spec/20_memory.md R35), the life cycle of a command
(spec/60_exceptions.md R86, R87), an error's effect (R88, R89) and the resets (spec/42_control.md R81,
spec/70_reset_and_hazards.md R102). -/

namespace Sys2Proof.Machine

/-! ## RAM -/

/-- The byte written at an offset, if any. -/
def Memory.get? : Memory → Nat → Option Byte
  | [], _ => none
  | (a, b) :: m, k => if a = k then some b else Memory.get? m k

/-- Writing a byte, keeping the offsets strictly rising. -/
def Memory.set : Memory → Nat → Byte → Memory
  | [], k, v => [(k, v)]
  | (a, b) :: m, k, v =>
    if k < a then (k, v) :: (a, b) :: m
    else if k = a then (k, v) :: m
    else (a, b) :: Memory.set m k v

/-- Writing consecutive bytes from an offset on. -/
def Memory.setList : Memory → Nat → List Byte → Memory
  | m, _, [] => m
  | m, k, b :: bs => Memory.setList (Memory.set m k b) (k + 1) bs

/-- Every offset of `m` lies above `k` and the offsets rise strictly. -/
def Memory.risesFrom : Option Nat → Memory → Bool
  | _, [] => true
  | none, (a, _) :: m => Memory.risesFrom (some a) m
  | some k, (a, _) :: m => decide (k < a) && Memory.risesFrom (some a) m

/-- The canonical form: offsets strictly rising. An unlisted offset reads as `none`, so no entry equals it. -/
def Memory.wf (m : Memory) : Bool := Memory.risesFrom none m

/-- The RAM byte the machine reads at an offset: the last one written, else the free value of this draw
(spec/10_state.md R32, spec/93_implementation_defined.md U1; log 2). -/
def State.ram (s : State) (a : Nat) : Byte := (s.mem.get? a).getD (Config.freeByte s.draw a)

/-- RAM bytes `a .. a + n - 1`. -/
def State.ramList (s : State) (a n : Nat) : List Byte := (List.range n).map fun i => s.ram (a + i)

/-- Consecutive bytes written to RAM. -/
def State.writeRam (s : State) (a : Nat) (bs : List Byte) : State := { s with mem := s.mem.setList a bs }

/-! ## Single fields -/

/-- The response to a transaction is given (spec/20_memory.md R34). -/
def State.respond (s : State) (r : Response) : State := { s with response := some r }

/-- The host's pending operations from now on. -/
def State.setHost (s : State) (ops : List HostOp) : State := { s with host := ops }

/-- The turns from now on. -/
def State.setSchedule (s : State) (ts : List Turn) : State := { s with schedule := ts }

/-- `rst_n` at a level. -/
def State.setPin (s : State) (high : Bool) : State := { s with rstN := high }

/-- CTRL written whole (spec/10_state.md R20). -/
def State.setCtrl (s : State) (c : Ctrl) : State := { s with ctrl := c }

/-- KEYLEN written (spec/10_state.md R24). -/
def State.setKeylen (s : State) (v : Word) : State := { s with keylen := v }

/-- FULLCODE written by the host: bits 30:0 (spec/10_state.md R26). -/
def State.setFullcode (s : State) (v : BitVec 31) : State := { s with fullcode := v }

/-- BLEN written by the host: bits 15:0 (spec/10_state.md R29). -/
def State.setBlen (s : State) (v : BitVec 16) : State := { s with blen := v }

/-- TLEN written by the host: bits 15:0 (spec/10_state.md R30). -/
def State.setTlen (s : State) (v : BitVec 16) : State := { s with tlen := v }

/-! ## The address map -/

/-- The 32-bit registers of the map (spec/20_memory.md R35). -/
inductive Reg
  | id
  | version
  | ctrl
  | cmd
  | status
  | keylen
  | offset
  | fullcode
  | codelen
  | blen
  | tlen
  | params
  deriving DecidableEq, Repr

/-- The byte windows of the map (spec/20_memory.md R35). -/
inductive Window
  | code
  | digest
  | bbuf
  | tbuf
  deriving DecidableEq, Repr

/-- What a legal transaction addresses: a whole register, or bytes of one window from an element on. -/
inductive Target
  | reg (r : Reg)
  | window (w : Window) (i : Nat)
  deriving DecidableEq, Repr

/-- The register at an offset (spec/20_memory.md R35). -/
def regAt (a : Nat) : Option Reg :=
  if a = 0x000 then some .id
  else if a = 0x004 then some .version
  else if a = 0x008 then some .ctrl
  else if a = 0x00C then some .cmd
  else if a = 0x010 then some .status
  else if a = 0x014 then some .keylen
  else if a = 0x018 then some .offset
  else if a = 0x01C then some .fullcode
  else if a = 0x020 then some .codelen
  else if a = 0x024 then some .blen
  else if a = 0x028 then some .tlen
  else if a = 0x02C then some .params
  else none

/-- A window's first offset (spec/20_memory.md R35). -/
def Window.base : Window → Nat
  | .code => 0x030
  | .digest => 0x040
  | .bbuf => 0x100
  | .tbuf => 0x400

/-- A window's number of bytes (spec/00_scope.md R8, spec/20_memory.md R35). -/
def Window.size (p : Params) : Window → Nat
  | .code => 16
  | .digest => 64
  | .bbuf => p.bbufSize
  | .tbuf => p.tbufSize

/-- The offset lies in the window. -/
def Window.holds (p : Params) (w : Window) (a : Nat) : Bool := w.base ≤ a && a < w.base + w.size p

/-- The window an offset lies in, if any; the rest of the map above 0x02F is unmapped (spec/20_memory.md R35, R39). -/
def windowAt (p : Params) (a : Nat) : Option Window :=
  [Window.code, .digest, .bbuf, .tbuf].find? fun w => w.holds p a

/-- What a transaction of `n` bytes at `a` addresses, or `none` where it is illegal: misaligned, a register in another size
than 4, a window access that leaves its window, or an unmapped offset (spec/20_memory.md R38, R39). -/
def target (p : Params) (a n : Nat) : Option Target :=
  if a % n ≠ 0 then none
  else if a < 0x030 then
    if n = 4 then (regAt a).map .reg else none
  else
    match windowAt p a with
    | some w => if a + n ≤ w.base + w.size p then some (.window w (a - w.base)) else none
    | none => none

/-- The window offset of a host address, if it lies in the register window (spec/20_memory.md R33; log 15). What lies
outside is the platform's. -/
def offsetOfHostAddress (addr : Nat) : Option Offset :=
  if Config.base ≤ addr ∧ addr < Config.base + 4096 then some (BitVec.ofNat 12 (addr - Config.base)) else none

/-! ## Windows by element -/

/-- CODE[i] (spec/10_state.md R27). -/
def State.codeByte (s : State) (i : Nat) : Byte := s.code.toList.getD i 0x00

/-- Element `i` of a window (spec/00_scope.md R11). -/
def State.element (s : State) : Window → Nat → Byte
  | .code, i => s.codeByte i
  | .digest, i => s.ram (Window.digest.base + i)
  | .bbuf, i => s.ram (Window.bbuf.base + i)
  | .tbuf, i => s.ram (Window.tbuf.base + i)

/-- The 32 data bits of a read: byte k in bits 8k+7:8k, the other bits 0 (spec/20_memory.md R36, R40). -/
def packLanes : List Byte → Word
  | [] => 0
  | b :: bs => (packLanes bs <<< 8) ||| b.setWidth 32

/-- The bytes of a write of `n` bytes, byte k from bits 8k+7:8k (spec/20_memory.md R34, R36). -/
def unpackLanes (n : Nat) (v : Word) : List Byte := (List.range n).map fun k => v.extractLsb' (8 * k) 8

/-! ## The life cycle of a command -/

/-- Acceptance of a command word (spec/60_exceptions.md R86). -/
def accept (w : Word) (s : State) : State := { s with latched := w, status := acceptStatus s.status }

/-- A successful completion, after its commits (spec/60_exceptions.md R87). -/
def succeed (s : State) : State := { s with status := successStatus s.status }

/-- An error, the machine's only exception: the command completes with ERR and ERRCODE, and nothing else changes. No vector,
no saved state, no mode (spec/60_exceptions.md R84, R87 to R89, R93). -/
def raise (e : ErrorKind) (s : State) : State := { s with status := errorStatus e s.status }

/-- The nearest thing to a return from an error: the host's acknowledgement by a STATUS write (spec/60_exceptions.md R94). -/
def acknowledge (v : Word) (s : State) : State := { s with status := clearStatus v s.status }

/-- The completion step of a command whose outcome is `r`: the state with its writes, or the error it raised
(spec/60_exceptions.md R87). -/
def complete (r : Except ErrorKind State) (s : State) : Host.Outcome State Fault Refusal :=
  match r with
  | .ok t => .next (succeed t)
  | .error e => .next (raise e s)

/-- A host write dropped because BUSY is 1 (spec/70_reset_and_hazards.md R107). -/
def dropWrite (s : State) : State := { s with status := overrunStatus s.status }

/-! ## Resets -/

/-- Every register at its reset value; DIGEST, BBUF and TBUF kept (spec/42_control.md R81, spec/10_state.md R32). -/
def softReset (s : State) : State :=
  { s with
    ctrl := Ctrl.reset
    status := Status.reset
    keylen := 0
    offset := 0
    fullcode := 0
    codelen := 0
    blen := 0
    tlen := 0
    code := Vector.replicate 16 0x00
    latched := 0x00000000 }

/-- `rst_n` falls: the pending command is lost and no step happens until it rises (spec/70_reset_and_hazards.md R102). That
the registers already hold their reset values while it is low is the model's choice (log 5). -/
def assertReset (s : State) : State := { softReset s with rstN := false }

/-- `rst_n` rises: every piece of state has its value after hardware reset; every RAM byte is drawn anew
(spec/70_reset_and_hazards.md R102, spec/10_state.md R32; log 2). -/
def releaseReset (s : State) : State := { softReset s with rstN := true, mem := [], draw := s.draw + 1 }

end Sys2Proof.Machine
end

