-- ==== Sys2Proof/Machine/Operands.lean ====
section
/-! DEFINITION. The operands of the commands, all implicit (spec/30_encoding.md R55): what a command reads, and how its
results are committed together (spec/60_exceptions.md R89). -/

namespace Sys2Proof.Machine

/-- DIGEST[i] (spec/10_state.md R28). -/
def State.digestByte (s : State) (i : Nat) : Byte := s.element .digest i

/-- BBUF[0..BLEN-1] (spec/10_state.md R29). -/
def State.bbufBytes (s : State) : List Byte := s.ramList Window.bbuf.base s.blen.toNat

/-- TBUF[0..TLEN-1] (spec/10_state.md R30). -/
def State.tbufText (s : State) : List Byte := s.ramList Window.tbuf.base s.tlen.toNat

/-- `commit { TBUF[0 .. len(out)-1] <- out ; TLEN <- len(out) }` (spec/40_base32.md R62). -/
def commitText (out : List Byte) (s : State) : State :=
  { s.writeRam Window.tbuf.base out with tlen := BitVec.ofNat 16 out.length }

/-- `commit { BBUF[0 .. m-1] <- out ; BLEN <- m }` (spec/40_base32.md R66). -/
def commitBytes (out : List Byte) (s : State) : State :=
  { s.writeRam Window.bbuf.base out with blen := BitVec.ofNat 16 out.length }

/-- `commit { OFFSET <- off ; FULLCODE <- fc }` (spec/41_truncation.md R74). -/
def commitFullCode (off : BitVec 4) (fc : BitVec 31) (s : State) : State :=
  { s with offset := off, fullcode := fc }

/-- `commit { CODE[0..15] <- C ; CODELEN <- n }` (spec/41_truncation.md R75, R78). -/
def commitCode (c : Vector Byte 16) (n : BitVec 5) (s : State) : State := { s with code := c, codelen := n }

end Sys2Proof.Machine
end

