-- ==== Sys2Proof/Machine/Base32.lean ====
section
/-! DEFINITION. The Base32 commands B32ENC and B32DEC (spec/40_base32.md). -/

namespace Sys2Proof.Machine

/-- The padding character `=` (spec/40_base32.md R59). -/
def padChar : Byte := 0x3D

/-- The character of a 5-bit value (spec/40_base32.md R59). -/
def base32Char (v : BitVec 5) : Byte :=
  if v.toNat < 26 then BitVec.ofNat 8 (0x41 + v.toNat) else BitVec.ofNat 8 (0x32 + (v.toNat - 26))

/-- The character is in the alphabet: `A`..`Z` or `2`..`7` (spec/40_base32.md R59). -/
def isBase32Char (c : Byte) : Bool := (0x41 ≤ c.toNat && c.toNat ≤ 0x5A) || (0x32 ≤ c.toNat && c.toNat ≤ 0x37)

/-- The value of a character of the alphabet, its position in the string (spec/40_base32.md R59). -/
def base32Value (c : Byte) : Nat := if c.toNat < 0x41 then c.toNat - 0x32 + 26 else c.toNat - 0x41

/-! ## Encoding -/

/-- A group's bytes as a 40-bit value, the first most significant, a missing byte 0 (spec/40_base32.md R61). -/
def groupValue (bs : List Byte) : BitVec 40 :=
  bs.getD 0 0x00 ++ bs.getD 1 0x00 ++ bs.getD 2 0x00 ++ bs.getD 3 0x00 ++ bs.getD 4 0x00

/-- Data characters of a group of `r` bytes (spec/40_base32.md R60). -/
def dataChars (r : Nat) : Nat := [0, 2, 4, 5, 7, 8].getD r 8

/-- The 8 characters of one group of 1 to 5 bytes (spec/40_base32.md R60 to R62). -/
def encodeGroup (bs : List Byte) : List Byte :=
  (List.range 8).map fun j =>
    if j < dataChars bs.length then base32Char ((groupValue bs).extractLsb' (35 - 5 * j) 5) else padChar

/-- The characters of `k` groups. -/
def encodeGroups : Nat → List Byte → List Byte
  | 0, _ => []
  | k + 1, bs => encodeGroup (bs.take 5) ++ encodeGroups k (bs.drop 5)

/-- The Base32 text of a byte sequence, ceil(n / 5) groups (spec/40_base32.md R62). -/
def base32Encode (bs : List Byte) : List Byte := encodeGroups ((bs.length + 4) / 5) bs

/-- The outcome of B32ENC (spec/40_base32.md R62). -/
def performB32enc (s : State) : Except ErrorKind State :=
  if s.blen.toNat > s.params.bbufSize then .error .bufferLength
  else .ok (commitText (base32Encode s.bbufBytes) s)

/-! ## Decoding -/

/-- Upper-casing of an ASCII letter (spec/40_base32.md R64). -/
def upcase (c : Byte) : Byte := if 0x61 ≤ c.toNat ∧ c.toNat ≤ 0x7A then c - 0x20 else c

/-- The values of the characters joined, 5 bits each, the first most significant (spec/40_base32.md R61, R66). -/
def bitString (cs : List Byte) : Nat := cs.foldl (fun s c => s * 32 + base32Value c) 0

/-- The bytes of `q` data characters; the low 5q - 8m bits are discarded (spec/40_base32.md R66, R68). -/
def decodeData (cs : List Byte) : List Byte :=
  (List.range (5 * cs.length / 8)).map fun j => BitVec.ofNat 8 (bitString cs / 2 ^ (5 * cs.length - 8 - 8 * j))

/-- Base32 text to bytes, with the checks in the order the rule gives them after the buffer check (spec/40_base32.md R65,
R66). The characters before the first `=` are the data characters, the rest the padding run. -/
def base32Decode (text : List Byte) : Except ErrorKind (List Byte) :=
  let u := text.map upcase
  let chars := u.takeWhile (· != padChar)
  let run := u.dropWhile (· != padChar)
  if text.length % 8 ≠ 0 then .error .formatLength
  else if u.all (fun c => isBase32Char c || c == padChar) = false then .error .formatChar
  else if run.all (· == padChar) = false then .error .formatPadpos
  else if run.length ∈ [0, 1, 3, 4, 6] then .ok (decodeData chars)
  else .error .formatPad

/-- The outcome of B32DEC (spec/40_base32.md R66). -/
def performB32dec (s : State) : Except ErrorKind State :=
  if s.tlen.toNat > s.params.tbufSize then .error .bufferLength
  else (base32Decode s.tbufText).map fun out => commitBytes out s

/-! ## Meanings -/

/-- B32ENC (spec/40_base32.md R62). -/
def execB32enc (s : State) : Host.Outcome State Fault Refusal := complete (performB32enc s) s

/-- B32DEC (spec/40_base32.md R66). -/
def execB32dec (s : State) : Host.Outcome State Fault Refusal := complete (performB32dec s) s

end Sys2Proof.Machine
end

