-- ==== Sys2Proof/Machine/Control.lean ====
section
/-! DEFINITION. The control commands NOP and SRESET (spec/42_control.md). -/

namespace Sys2Proof.Machine

/-- NOP: `commit { }`, nothing but the completion (spec/42_control.md R80). -/
def execNop (s : State) : Host.Outcome State Fault Refusal := complete (.ok s) s

/-- SRESET: every register at its reset value, the latched command discarded, no completion, the RAM windows kept
(spec/42_control.md R81). `step` runs it at the CMD write that carries its word, whatever BUSY is. -/
def execSreset (s : State) : Host.Outcome State Fault Refusal := .next (softReset s)

end Sys2Proof.Machine
end

