-- ==== Sys2Proof/Machine/Truncation.lean ====
section
/-! DEFINITION. The truncation commands TRUNC, DECIMAL, STEAM, HOTP and STEAMCODE (spec/41_truncation.md). -/

namespace Sys2Proof.Machine

/-- The digest length of an algorithm number, none for 5, 6 and 7 (spec/41_truncation.md R70). -/
def digestLength (alg : BitVec 3) : Option Nat :=
  match alg.toNat with
  | 0 => some 20
  | 1 => some 32
  | 2 => some 48
  | 3 => some 64
  | 4 => some 16
  | _ => none

/-- `FullCode(a, strict, keylen, D)` with its checks in order (spec/41_truncation.md R72). The digest is given by its
elements. -/
def fullCode (alg : BitVec 3) (strict : Bool) (keylen : Word) (d : Nat → Byte) : Except ErrorKind (BitVec 4 × BitVec 31) :=
  match digestLength alg with
  | none => .error .unsupportedAlgorithm
  | some len =>
    if keylen = 0 then .error .invalidSecret
    else if strict = true ∧ keylen.toNat < 16 then .error .invalidSecret
    else if strict = true ∧ alg ≠ 0 then .error .noncompliant
    else
      let off := (d (len - 1)).extractLsb' 0 4
      if off.toNat + 4 > len then .error .digestRange
      else
        let w : Word := d off.toNat ++ d (off.toNat + 1) ++ d (off.toNat + 2) ++ d (off.toNat + 3)
        .ok (off, w.extractLsb' 0 31)

/-- `Dec(fc, d)`: the digit characters, most significant first, zero-filled to 16 (spec/41_truncation.md R75). -/
def decimalChars (fc : BitVec 31) (d : BitVec 4) : Except ErrorKind (Vector Byte 16) :=
  if d.toNat < 6 ∨ 9 < d.toNat then .error .invalidLength
  else .ok (Vector.ofFn fun i : Fin 16 =>
    if i.val < d.toNat then BitVec.ofNat 8 (0x30 + fc.toNat % 10 ^ d.toNat / 10 ^ (d.toNat - 1 - i.val) % 10) else 0x00)

/-- The Steam alphabet `23456789BCDFGHJKMNPQRTVWXY` in ASCII (spec/41_truncation.md R77). -/
def steamAlphabet : List Byte :=
  [0x32, 0x33, 0x34, 0x35, 0x36, 0x37, 0x38, 0x39, 0x42, 0x43, 0x44, 0x46, 0x47, 0x48, 0x4A, 0x4B, 0x4D, 0x4E, 0x50, 0x51,
    0x52, 0x54, 0x56, 0x57, 0x58, 0x59]

/-- The first `n` base-26 digits of `f` as Steam characters, least significant first (spec/41_truncation.md R78). -/
def steamDigits : Nat → Nat → List Byte
  | 0, _ => []
  | n + 1, f => steamAlphabet.getD (f % 26) 0x00 :: steamDigits n (f / 26)

/-- `SteamChars(fc)`: five characters, zero-filled to 16 (spec/41_truncation.md R78). -/
def steamChars (fc : BitVec 31) : Vector Byte 16 :=
  Vector.ofFn fun i : Fin 16 => (steamDigits 5 fc.toNat).getD i.val 0x00

/-- The outcome of TRUNC (spec/41_truncation.md R74). -/
def performTrunc (s : State) : Except ErrorKind State :=
  (fullCode s.ctrl.alg s.ctrl.strict s.keylen s.digestByte).map fun r => commitFullCode r.1 r.2 s

/-- The outcome of DECIMAL (spec/41_truncation.md R75). -/
def performDecimal (s : State) : Except ErrorKind State :=
  (decimalChars s.fullcode s.ctrl.digits).map fun c => commitCode c (s.ctrl.digits.setWidth 5) s

/-- The outcome of STEAM, which has no error (spec/41_truncation.md R78). -/
def performSteam (s : State) : Except ErrorKind State := .ok (commitCode (steamChars s.fullcode) 5 s)

/-- The outcome of HOTP: both steps or neither (spec/41_truncation.md R76). -/
def performHotp (s : State) : Except ErrorKind State :=
  match fullCode s.ctrl.alg s.ctrl.strict s.keylen s.digestByte with
  | .error e => .error e
  | .ok (off, fc) =>
    (decimalChars fc s.ctrl.digits).map fun c => commitCode c (s.ctrl.digits.setWidth 5) (commitFullCode off fc s)

/-- The outcome of STEAMCODE: SHA1 is forced, CTRL.ALG and CTRL.DIGITS are not read (spec/41_truncation.md R79). -/
def performSteamcode (s : State) : Except ErrorKind State :=
  (fullCode 0 s.ctrl.strict s.keylen s.digestByte).map fun r =>
    commitCode (steamChars r.2) 5 (commitFullCode r.1 r.2 s)

/-- TRUNC (spec/41_truncation.md R74). -/
def execTrunc (s : State) : Host.Outcome State Fault Refusal := complete (performTrunc s) s

/-- DECIMAL (spec/41_truncation.md R75). -/
def execDecimal (s : State) : Host.Outcome State Fault Refusal := complete (performDecimal s) s

/-- STEAM (spec/41_truncation.md R78). -/
def execSteam (s : State) : Host.Outcome State Fault Refusal := complete (performSteam s) s

/-- HOTP (spec/41_truncation.md R76). -/
def execHotp (s : State) : Host.Outcome State Fault Refusal := complete (performHotp s) s

/-- STEAMCODE (spec/41_truncation.md R79). -/
def execSteamcode (s : State) : Host.Outcome State Fault Refusal := complete (performSteamcode s) s

end Sys2Proof.Machine
end

