-- ==== Sys2Proof/Machine/Dispatch.lean ====
section
/-! DEFINITION. One arm per command (spec/30_encoding.md R52). For every command but SRESET the meaning is its completion
step (spec/60_exceptions.md R87); for SRESET it is the effect at the CMD write (spec/42_control.md R81). -/

namespace Sys2Proof.Machine

def exec (i : Instr) (s : State) : Host.Outcome State Fault Refusal :=
  match i with
  | .nop => Sys2Proof.Machine.execNop s
  | .b32enc => Sys2Proof.Machine.execB32enc s
  | .b32dec => Sys2Proof.Machine.execB32dec s
  | .trunc => Sys2Proof.Machine.execTrunc s
  | .decimal => Sys2Proof.Machine.execDecimal s
  | .steam => Sys2Proof.Machine.execSteam s
  | .hotp => Sys2Proof.Machine.execHotp s
  | .steamcode => Sys2Proof.Machine.execSteamcode s
  | .sreset => Sys2Proof.Machine.execSreset s

end Sys2Proof.Machine
end

