-- ==== Sys2Proof/Machine/Bus.lean ====
section
/-! DEFINITION. The host's transactions: legal reads and writes, and the errors (spec/20_memory.md R38 to R43,
spec/60_exceptions.md R86, spec/70_reset_and_hazards.md R107). -/

namespace Sys2Proof.Machine

/-- The value of a register as a host reads it: constants, reserved bits 0, CMD 0 (spec/10_state.md R18 to R30,
spec/20_memory.md R40, R43). -/
def readReg (s : State) : Reg → Word
  | .id => 0x4F545058
  | .version => 0x00010000
  | .ctrl => ctrlWord s.ctrl
  | .cmd => 0x00000000
  | .status => statusWord s.status
  | .keylen => s.keylen
  | .offset => s.offset.setWidth 32
  | .fullcode => s.fullcode.setWidth 32
  | .codelen => s.codelen.setWidth 32
  | .blen => s.blen.setWidth 32
  | .tlen => s.tlen.setWidth 32
  | .params => BitVec.ofNat 16 s.params.tbufSize ++ BitVec.ofNat 16 s.params.bbufSize

/-- The data of a legal read (spec/20_memory.md R36, R40). -/
def readTarget (s : State) (n : Nat) : Target → Word
  | .reg r => readReg s r
  | .window w i => packLanes ((List.range n).map fun k => s.element w (i + k))

/-- `BusRead(a, n)`: no read changes anything (spec/20_memory.md R38, R40). -/
def busRead (s : State) (a : Offset) (n : Size) : Response :=
  match target s.params a.toNat n.bytes with
  | some t => .read .okay (readTarget s n.bytes t)
  | none => .read .error 0

/-- A write to an input register or window: stored when idle, dropped with WOVR set while BUSY (spec/20_memory.md R41,
spec/70_reset_and_hazards.md R107). -/
def storeInput (stored s : State) : State := if s.status.busy then dropWrite s else stored

/-- A legal write of `w` to CMD: SRESET at once whatever BUSY is, else acceptance when idle and a dropped write while BUSY
(spec/10_state.md R21, spec/42_control.md R81, spec/60_exceptions.md R86, spec/70_reset_and_hazards.md R107). -/
def writeCmd (w : Word) (s : State) : Host.Outcome State Fault Refusal :=
  if w = sresetWord then exec .sreset s else .next (storeInput (accept w s) s)

/-- A legal 4-byte write of `v` to a register (spec/20_memory.md R41 to R43). -/
def writeReg (v : Word) (s : State) : Reg → Host.Outcome State Fault Refusal
  | .id => .next s
  | .version => .next s
  | .ctrl => .next (storeInput (s.setCtrl (ctrlOfWord v)) s)
  | .cmd => writeCmd v s
  | .status => .next (acknowledge v s)
  | .keylen => .next (storeInput (s.setKeylen v) s)
  | .offset => .next s
  | .fullcode => .next (storeInput (s.setFullcode (v.extractLsb' 0 31)) s)
  | .codelen => .next s
  | .blen => .next (storeInput (s.setBlen (v.extractLsb' 0 16)) s)
  | .tlen => .next (storeInput (s.setTlen (v.extractLsb' 0 16)) s)
  | .params => .next s

/-- A legal write of bytes to a window from element `i` on; CODE is read only (spec/20_memory.md R41, R42). -/
def writeWindow (bs : List Byte) (s : State) : Window → Nat → State
  | .code, _ => s
  | .digest, i => storeInput (s.writeRam (Window.digest.base + i) bs) s
  | .bbuf, i => storeInput (s.writeRam (Window.bbuf.base + i) bs) s
  | .tbuf, i => storeInput (s.writeRam (Window.tbuf.base + i) bs) s

/-- The effect of a legal write of `n` bytes (spec/20_memory.md R41). -/
def writeTarget (n : Nat) (v : Word) (s : State) : Target → Host.Outcome State Fault Refusal
  | .reg r => writeReg v s r
  | .window w i => .next (writeWindow (unpackLanes n v) s w i)

/-- One transaction, with its response (spec/20_memory.md R34): an illegal one answers ERROR and changes nothing else
(R38, R39). -/
def transact (t : BusOp) (s : State) : Host.Outcome State Fault Refusal :=
  match t with
  | .read a n => .next (s.respond (busRead s a n))
  | .write a n v =>
    match target s.params a.toNat n.bytes with
    | some tgt => writeTarget n.bytes v (s.respond (.write .okay)) tgt
    | none => .next (s.respond (.write .error))

/-- One round of `WAIT`: the read of STATUS, which ends the loop when it shows BUSY = 0 (spec/30_encoding.md R58). `rest` is
the host's program after the loop. -/
def poll (rest : List HostOp) (s : State) : State :=
  (s.setHost (if s.status.busy then s.host else rest)).respond (busRead s 0x010 .word)

end Sys2Proof.Machine
end

