-- ==== Sys2Proof/Machine/Turns.lean ====
section
/-! DEFINITION. The turns: one atomic move of the host, the engine or the reset pin (spec/20_memory.md R44, R46,
spec/60_exceptions.md R87, R91, spec/70_reset_and_hazards.md R102), and how a command word comes to run next. -/

namespace Sys2Proof.Machine

/-- The completion step: the latched word is decoded and performed; an illegal word raises ILLEGAL_CMD
(spec/60_exceptions.md R87, spec/30_encoding.md R53, R54). -/
def completeLatched (s : State) : Host.Outcome State Fault Refusal :=
  match decodeWord s.latched with
  | .ok i => exec i s
  | .error _ => complete (.error .illegalCmd) s

/-- The engine's turn: the completion step if it is enabled, else nothing (spec/60_exceptions.md R87; none in reset,
spec/70_reset_and_hazards.md R102). -/
def engineTurn (s : State) : Host.Outcome State Fault Refusal :=
  if s.rstN && s.status.busy then completeLatched s else .next s

/-- The host's turn: its next operation, if it has one; a transaction while `rst_n` is low has no step
(spec/20_memory.md R45, spec/70_reset_and_hazards.md R102; log 6). -/
def hostTurn (s : State) : Host.Outcome State Fault Refusal :=
  match s.host with
  | [] => .next s
  | op :: rest =>
    if s.rstN = false then .fault .transactionDuringReset
    else
      match op with
      | .txn t => transact t (s.setHost rest)
      | .wait => .next (poll rest s)

/-- One scheduled turn. A pin turn to the level the pin already has is no edge and changes nothing. -/
def takeTurn (t : Turn) (s : State) : Host.Outcome State Fault Refusal :=
  match t with
  | .host => hostTurn s
  | .engine => engineTurn s
  | .resetLow => .next (if s.rstN then assertReset s else s)
  | .resetHigh => .next (if s.rstN then s else releaseReset s)

/-- The move when nothing more is scheduled: in reset none, else the pending completion (it is finite,
spec/70_reset_and_hazards.md R110), else the host's next operation (log 1). -/
def defaultTurn (s : State) : Host.Outcome State Fault Refusal :=
  if s.rstN = false then .next s
  else if s.status.busy then engineTurn s
  else hostTurn s

/-- The state in which the very next step runs the command word `c`: SRESET's word as the host's next CMD write
(spec/42_control.md R81), any other word latched as its acceptance leaves it, with the engine to move
(spec/60_exceptions.md R86, R87; log 8). -/
def placeCommand (c : Word) (s : State) : State :=
  if c = sresetWord then
    ((s.setPin true).setHost (.txn (.write 0x00C .word c) :: s.host)).setSchedule (.host :: s.schedule)
  else
    ((accept c s).setPin true).setSchedule (.engine :: s.schedule)

end Sys2Proof.Machine
end

