-- ==== Sys2Proof/Machine/HostProgram.lean ====
section
/-! DEFINITION. The host-program notation and its pseudo-operations (spec/30_encoding.md R57, R58). -/

namespace Sys2Proof.Machine.HostProgram

/-- `WR32 off, val`. -/
def wr32 (off : Offset) (val : Word) : HostOp := .txn (.write off .word val)

/-- `WR16 off, val`. -/
def wr16 (off : Offset) (val : Word) : HostOp := .txn (.write off .half val)

/-- `WR8 off, val`. -/
def wr8 (off : Offset) (val : Word) : HostOp := .txn (.write off .byte val)

/-- `RD32 off`. -/
def rd32 (off : Offset) : HostOp := .txn (.read off .word)

/-- `RD16 off`. -/
def rd16 (off : Offset) : HostOp := .txn (.read off .half)

/-- `RD8 off`. -/
def rd8 (off : Offset) : HostOp := .txn (.read off .byte)

/-- `CMD m`: the write of m's word to CMD. -/
def cmd (i : Instr) : List HostOp := [wr32 0x00C (encode i)]

/-- `WAIT`. -/
def wait : List HostOp := [.wait]

/-- `RUN m`: `CMD m` then `WAIT`. -/
def run (i : Instr) : List HostOp := cmd i ++ wait

/-- `WRBYTES off, b0 b1 … bk`: one `WR8` a byte, in order. DESIGN CHOICE: where off + i passes 0xFFF the rule gives the line no
meaning, since offsets are 12 bits (spec/20_memory.md R33); here the offset wraps to 0x000 (log 23). -/
def wrBytes : Offset → List Byte → List HostOp
  | _, [] => []
  | off, b :: bs => wr8 off (b.setWidth 32) :: wrBytes (off + 1) bs

/-- `WRTEXT off, "s"`: the characters in ASCII (spec/00_scope.md R14). DESIGN CHOICE: `ASCII(c)` is not defined for a character
outside ASCII; here it is the low 8 bits of the code point (log 24). -/
def wrText (off : Offset) (s : List Char) : List HostOp := wrBytes off (s.map fun c => BitVec.ofNat 8 c.toNat)

/-- The state with a host program to perform after what is already pending. -/
def load (ops : List HostOp) (s : State) : State := { s with host := s.host ++ ops }

end Sys2Proof.Machine.HostProgram
end

