-- ==== Sys2Proof/WellFormed.lean ====
section
/-! DEFINITION. The checks on what is handed to the machine: command words (spec/30_encoding.md R51 to R54), transactions
(spec/20_memory.md R38) and buffer sizes (spec/00_scope.md R8). -/

namespace Sys2Proof

/-- A command has no operand field (spec/30_encoding.md R55), so there is nothing in one to be ill formed. -/
def Instr.wellFormed : Instr → Bool
  | .nop => true
  | .b32enc => true
  | .b32dec => true
  | .trunc => true
  | .decimal => true
  | .steam => true
  | .hotp => true
  | .steamcode => true
  | .sreset => true

/-- Check: the RSV field, bits 31:8, is 0 (spec/30_encoding.md R51, R54). -/
def reservedBitsZero (w : Word) : Bool := w.toNat / 256 == 0

/-- Check: the OP field, bits 7:0, is an assigned opcode (spec/30_encoding.md R52). -/
def opcodeAssigned (w : Word) : Bool :=
  [0x00, 0x01, 0x02, 0x10, 0x11, 0x12, 0x13, 0x14, 0xFF].contains (w.toNat % 256)

/-- A command word that names a command. -/
def wordWellFormed (w : Word) : Bool := reservedBitsZero w && opcodeAssigned w

/-- Check: natural alignment, `a mod n = 0` (spec/20_memory.md R38). -/
def BusOp.aligned : BusOp → Bool
  | .read a n => a.toNat % n.bytes == 0
  | .write a n _ => a.toNat % n.bytes == 0

/-- Check: the constraints on the buffer sizes (spec/00_scope.md R8). -/
def Params.wellFormed (p : Params) : Bool :=
  p.bbufSize % 5 == 0 && 5 ≤ p.bbufSize && p.bbufSize ≤ 765 && p.tbufSize == 8 * p.bbufSize / 5

end Sys2Proof
end

