-- ==== Sys2Proof/Safety.lean ====
section
/-! DEFINITION. What claims are stated in: the invariant of the machine, the end of a run, the host's duties
(spec/70_reset_and_hazards.md R104, R109, R111), and the spec's own forms of a legal access, a Base32 text, a decimal string
and a Steam code, written apart from the meanings. -/

namespace Sys2Proof.Machine

/-! ## The invariant -/

/-- Every error kind (spec/60_exceptions.md R85). -/
def errorKinds : List ErrorKind :=
  [.illegalCmd, .unsupportedAlgorithm, .invalidSecret, .noncompliant, .digestRange, .invalidLength, .formatLength, .formatChar,
    .formatPadpos, .formatPad, .bufferLength]

/-- STATUS is consistent: an error flag goes with a code of the table and no flag with code 0; while BUSY, DONE and ERR are
clear (spec/60_exceptions.md R85 to R87, spec/10_state.md R22). -/
def Status.consistent (st : Status) : Bool :=
  (if st.err then (errorKinds.map errorCode).contains st.errcode else st.errcode == 0x00)
    && (!st.busy || (!st.done && !st.err))

/-- A decimal digit character. -/
def isDigitChar (c : Byte) : Bool := 0x30 ≤ c.toNat && c.toNat ≤ 0x39

/-- A character of the Steam alphabet (spec/41_truncation.md R77). -/
def isSteamChar (c : Byte) : Bool := steamAlphabet.contains c

/-- CODE and CODELEN agree: 6 to 9 digits, 5 Steam characters, or nothing, and zeros behind (spec/10_state.md R27). -/
def codeConsistent (code : Vector Byte 16) (codelen : BitVec 5) : Bool :=
  let n := codelen.toNat
  (code.toList.drop n).all (· == 0x00)
    && (n == 0 || (n == 5 && (code.toList.take n).all isSteamChar)
      || (6 ≤ n && n ≤ 9 && (code.toList.take n).all isDigitChar))

/-- Every written byte lies in DIGEST, BBUF or TBUF (spec/20_memory.md R35). -/
def memoryInWindows (p : Params) (m : Memory) : Bool :=
  m.all fun c => Window.digest.holds p c.1 || Window.bbuf.holds p c.1 || Window.tbuf.holds p c.1

/-- What every step keeps. -/
structure Inv (s : State) : Prop where
  /-- The buffer sizes are legal (spec/00_scope.md R8). -/
  sizes : s.params.wellFormed = true
  /-- Memory is in its canonical form. -/
  canonical : s.mem.wf = true
  /-- Memory holds window bytes only. -/
  windows : memoryInWindows s.params s.mem = true
  /-- STATUS is consistent. -/
  status : s.status.consistent = true
  /-- CODE and CODELEN agree. -/
  code : codeConsistent s.code s.codelen = true
  /-- SRESET's word is never pending (spec/42_control.md R81). -/
  pending : s.status.busy = true → s.latched ≠ sresetWord
  /-- No command is pending and no interrupt is raised while `rst_n` is low (log 5). -/
  inReset : s.rstN = false → s.status.busy = false ∧ s.irq = false

/-! ## Runs -/

/-- The end of a host program's run: the last transaction issued and answered, and BUSY = 0
(spec/70_reset_and_hazards.md R111). -/
def State.finished (s : State) : Bool := s.host.isEmpty && !s.status.busy

/-- The host's duty: no turn of the host between a falling and a rising edge of `rst_n`
(spec/70_reset_and_hazards.md R102). `high` is the level of the pin before the schedule. -/
def quietInReset : Bool → List Turn → Bool
  | _, [] => true
  | high, .host :: ts => high && quietInReset high ts
  | high, .engine :: ts => quietInReset high ts
  | _, .resetLow :: ts => quietInReset false ts
  | _, .resetHigh :: ts => quietInReset true ts

/-- A run that never stops with a fault. -/
def SafeRun (s : State) : Prop := ∀ k r, Sys2Proof.core.run k s ≠ .fault r

/-! ## The host's duties before a command -/

/-- The bytes a command may read, as offsets from first to last: all of an algorithm's digest, BBUF[0..BLEN-1],
TBUF[0..TLEN-1] (spec/30_encoding.md R55). -/
def inputBytes (i : Instr) (s : State) : List Nat :=
  match i with
  | .nop => []
  | .b32enc => (List.range s.blen.toNat).map (Window.bbuf.base + ·)
  | .b32dec => (List.range s.tlen.toNat).map (Window.tbuf.base + ·)
  | .trunc => (List.range ((digestLength s.ctrl.alg).getD 0)).map (Window.digest.base + ·)
  | .decimal => []
  | .steam => []
  | .hotp => (List.range ((digestLength s.ctrl.alg).getD 0)).map (Window.digest.base + ·)
  | .steamcode => (List.range 20).map (Window.digest.base + ·)
  | .sreset => []

/-- The host's duty: every window byte the command reads has been written since hardware reset
(spec/70_reset_and_hazards.md R104, R109 item 4). -/
def inputsWritten (i : Instr) (s : State) : Bool := (inputBytes i s).all fun a => (s.mem.get? a).isSome

/-! ## The spec's own forms -/

/-- A transaction of `n` bytes at `a` is legal: aligned, and a 4-byte register access or bytes of one window
(spec/20_memory.md R35, R38, R39). -/
def LegalAccess (p : Params) (a n : Nat) : Prop :=
  a % n = 0 ∧ ((a < 0x030 ∧ n = 4)
    ∨ ∃ w ∈ [(0x030, 16), (0x040, 64), (0x100, p.bbufSize), (0x400, p.tbufSize)], w.1 ≤ a ∧ a + n ≤ w.1 + w.2)

/-- The state in which the host issues `t` next. -/
def State.issuing (s : State) (t : BusOp) : State :=
  ((s.setPin true).setSchedule (.host :: s.schedule)).setHost (.txn t :: s.host)

/-- The state after the host's transaction was answered by `r`, if nothing else changed. -/
def State.answered (s : State) (r : Response) : State := (s.setPin true).respond r

/-- Every register holds its value after reset, as the host reads it; CODE is zero, the latched command 0, irq 0
(spec/10_state.md R32). -/
def RegistersReset (s : State) : Prop :=
  readReg s .id = 0x4F545058 ∧ readReg s .version = 0x00010000
    ∧ (readReg s .params).toNat = s.params.bbufSize % 65536 + 65536 * (s.params.tbufSize % 65536)
    ∧ readReg s .ctrl = 0x00000060 ∧ readReg s .status = 0x00000000 ∧ readReg s .keylen = 0 ∧ readReg s .offset = 0
    ∧ readReg s .fullcode = 0 ∧ readReg s .codelen = 0 ∧ readReg s .blen = 0 ∧ readReg s .tlen = 0
    ∧ (∀ i, s.element .code i = 0x00) ∧ s.latched = 0x00000000 ∧ s.irq = false

/-- The Base32 alphabet `ABCDEFGHIJKLMNOPQRSTUVWXYZ234567` in ASCII, by value (spec/40_base32.md R59). -/
def base32Alphabet : List Byte :=
  [0x41, 0x42, 0x43, 0x44, 0x45, 0x46, 0x47, 0x48, 0x49, 0x4A, 0x4B, 0x4C, 0x4D, 0x4E, 0x4F, 0x50, 0x51, 0x52, 0x53, 0x54,
    0x55, 0x56, 0x57, 0x58, 0x59, 0x5A, 0x32, 0x33, 0x34, 0x35, 0x36, 0x37]

/-- Character `i` of the text in TBUF, upper-cased (spec/40_base32.md R64). -/
def State.textChar (s : State) (i : Nat) : Byte := upcase (s.element .tbuf i)

/-- The text u[0..n-1] is legal Base32 with `q` data characters: the four conditions (spec/40_base32.md R65). -/
def LegalBase32 (u : Nat → Byte) (n q : Nat) : Prop :=
  n % 8 = 0 ∧ (∀ i < n, u i ∈ base32Alphabet ∨ u i = 0x3D)
    ∧ (q ≤ n ∧ (∀ i < q, u i ≠ 0x3D) ∧ ∀ i, q ≤ i → i < n → u i = 0x3D)
    ∧ n - q ∈ [0, 1, 3, 4, 6]

/-- Bit `x` of the stream of the characters' 5-bit values, counted from the first character's most significant bit
(spec/40_base32.md R61). -/
def base32Bit (u : Nat → Byte) (x : Nat) : Bool := (base32Alphabet.idxOf (u (x / 5))).testBit (4 - x % 5)

/-- Group `k` of the `n` bytes in BBUF as a 40-bit number, the first byte most significant, missing bytes 0
(spec/40_base32.md R61, R62). -/
def State.bbufGroup (s : State) (k : Nat) : Nat :=
  let b := fun j => if 5 * k + j < s.blen.toNat then (s.element .bbuf (5 * k + j)).toNat else 0
  b 0 * 2 ^ 32 + b 1 * 2 ^ 24 + b 2 * 2 ^ 16 + b 3 * 2 ^ 8 + b 4

/-- Character `j` of group `k` of the Base32 text of BBUF[0..BLEN-1] (spec/40_base32.md R60 to R62). -/
def State.encodedChar (s : State) (k j : Nat) : Byte :=
  if j < [0, 2, 4, 5, 7, 8].getD (min 5 (s.blen.toNat - 5 * k)) 0 then
    base32Alphabet.getD (s.bbufGroup k / 2 ^ (35 - 5 * j) % 32) 0x00
  else 0x3D

/-- CODE holds the `d` decimal digits of `v`, most significant first, left-padded with `0`, then zeros
(spec/41_truncation.md R75). -/
def DecimalText (s : State) (d v : Nat) : Prop :=
  s.codelen.toNat = d
    ∧ (∀ i < d, 0x30 ≤ (s.element .code i).toNat ∧ (s.element .code i).toNat ≤ 0x39)
    ∧ (List.range d).foldl (fun acc i => acc * 10 + ((s.element .code i).toNat - 0x30)) 0 = v
    ∧ ∀ i, d ≤ i → s.element .code i = 0x00

/-- CODE holds the five Steam characters of `f`, least significant base-26 digit first, then zeros
(spec/41_truncation.md R77, R78). -/
def SteamText (s : State) (f : Nat) : Prop :=
  s.codelen.toNat = 5
    ∧ (∀ i < 5, s.element .code i = steamAlphabet.getD (f / 26 ^ i % 26) 0x00)
    ∧ ∀ i, 5 ≤ i → s.element .code i = 0x00

/-- The offset that dynamic truncation selects in a digest of `len` bytes (spec/41_truncation.md R72). -/
def State.selectedOffset (s : State) (len : Nat) : Nat := (s.element .digest (len - 1)).toNat % 16

/-- The 31-bit big-endian value at element `off` of DIGEST (spec/41_truncation.md R72). -/
def State.selectedCode (s : State) (off : Nat) : Nat :=
  let d := fun i => (s.element .digest i).toNat
  (d off * 2 ^ 24 + d (off + 1) * 2 ^ 16 + d (off + 2) * 2 ^ 8 + d (off + 3)) % 2 ^ 31

/-- The algorithm numbers with their digest lengths (spec/41_truncation.md R70). -/
def algorithms : List (BitVec 3 × Nat) := [(0, 20), (1, 32), (2, 48), (3, 64), (4, 16)]

/-- A pin-free schedule: only the host and the engine move. -/
def pinFree (ts : List Turn) : Bool := ts.all fun t => t == .host || t == .engine

end Sys2Proof.Machine
end

