-- ==== Sys2Proof/Certificates/Slice0/Obligations.lean ====
section
/-! DEFINITION. The statements about OTPX for the provers. STATUS is written ⟨busy, done, err, wovr, errcode⟩ throughout. -/

open Sys2Proof Sys2Proof.Machine

/-! ## Encoding -/

/-- R52: a word selects a command only if it equals the listed value exactly; and the encoder is that list. -/
def Obligations.DecodeSelectsExactlyTheListedWords : Prop :=
  ∀ (w : Word) (i : Instr),
    (decodeWord w = .ok i ↔ (w, i) ∈
      [((0x00000000 : Word), Instr.nop), (0x00000001, .b32enc), (0x00000002, .b32dec), (0x00000010, .trunc),
        (0x00000011, .decimal), (0x00000012, .steam), (0x00000013, .hotp), (0x00000014, .steamcode), (0x000000FF, .sreset)])
    ∧ (decodeWord w = .ok i ↔ w = encode i)

/-- R53: reserved bits are checked first, then the opcode; the check on words agrees with the decoder. -/
def Obligations.EveryOtherWordIsRejectedByName : Prop :=
  ∀ w : Word,
    (decodeWord w = .error .reservedBits ↔ 256 ≤ w.toNat)
    ∧ (decodeWord w = .error .unassignedOpcode ↔
        w.toNat < 256 ∧ w.toNat ∉ [0x00, 0x01, 0x02, 0x10, 0x11, 0x12, 0x13, 0x14, 0xFF])
    ∧ (wordWellFormed w = true ↔ ∃ i, decodeWord w = .ok i)

/-- A few words of R52's table, as the four bytes of a CMD write, lowest lane first. -/
def Obligations.ListedWordsDecode : Prop :=
  decodeBytes [0x00, 0x00, 0x00, 0x00] = .ok .nop ∧ decodeBytes [0x02, 0x00, 0x00, 0x00] = .ok .b32dec
    ∧ decodeBytes [0x13, 0x00, 0x00, 0x00] = .ok .hotp ∧ decodeBytes [0xFF, 0x00, 0x00, 0x00] = .ok .sreset
    ∧ decodeBytes [0xFF, 0x01, 0x00, 0x00] = .error .reservedBits

/-- R56: a command is exactly one 4-byte word, and a CMD access of size 1 or 2 is a bus error that starts nothing. -/
def Obligations.CommandsAreExactlyOneWord : Prop :=
  (∀ i : Instr, decodeBytes (bytesOfWord (encode i)) = .ok i)
    ∧ (∀ bs : List Byte, bs.length ≠ 4 → decodeBytes bs = .error .notOneWord)
    ∧ ∀ (s : State) (n : Size) (v : Word), n = .byte ∨ n = .half →
        step (s.issuing (.write 0x00C n v)) = .next (s.answered (.write .error))
        ∧ step (s.issuing (.read 0x00C n)) = .next (s.answered (.read .error 0))

/-! ## The step and the life cycle of a command -/

/-- R87, R46: the engine's step decodes the latched word and performs that command, scheduled or by default; while idle its turn
changes nothing but the schedule, so an accepted command has at most one completion. The default, the engine first when nothing is
scheduled, is the model's choice (log 1). For i = SRESET, which never passes through completion and which no run reaches here
(R53, R81; the clause pending of Inv), the statement is the model's reading of the pseudocode of R87 (log 9, DEDUCED). -/
def Obligations.EngineStepRunsTheLatchedCommand : Prop :=
  ∀ s : State,
    (∀ i : Instr, s.rstN = true → s.status.busy = true → decodeWord s.latched = .ok i →
      (∀ rest, s.schedule = .engine :: rest → step s = exec i { s with schedule := rest })
      ∧ (s.schedule = [] → step s = exec i s))
    ∧ (∀ rest, s.status.busy = false → s.schedule = .engine :: rest → step s = .next { s with schedule := rest })

/-- R54: an illegal word is accepted like any command and completes with ILLEGAL_CMD, changing nothing but STATUS. The words
with OP = 0xFF and RSV not 0 are among them. -/
def Obligations.IllegalWordsCompleteWithIllegalCmd : Prop :=
  ∀ (s : State) (w : Word),
    256 ≤ w.toNat ∨ w.toNat ∉ [0x00, 0x01, 0x02, 0x10, 0x11, 0x12, 0x13, 0x14, 0xFF] →
    (s.status.busy = false →
      step (s.issuing (.write 0x00C .word w)) =
        .next { s.answered (.write .okay) with latched := w, status := ⟨true, false, false, s.status.wovr, 0x00⟩ })
    ∧ (∀ rest, s.rstN = true → s.status.busy = true → s.latched = w → s.schedule = .engine :: rest →
        step s = .next { s with schedule := rest, status := ⟨false, true, true, s.status.wovr, 0x01⟩ })

/-- R86: acceptance latches the word, sets BUSY, clears DONE, ERR and ERRCODE, keeps WOVR, and irq falls; with BUSY = 1 a CMD
write is not accepted; the word 0x000000FF is SRESET, whatever BUSY is. -/
def Obligations.IdleCommandWriteIsAccepted : Prop :=
  ∀ (s : State) (w : Word),
    (s.status.busy = false → w ≠ 0x000000FF →
      ∃ t, step (s.issuing (.write 0x00C .word w)) = .next t
        ∧ t = { s.answered (.write .okay) with latched := w, status := ⟨true, false, false, s.status.wovr, 0x00⟩ }
        ∧ t.irq = false)
    ∧ (s.status.busy = true → w ≠ 0x000000FF →
      ∃ t, step (s.issuing (.write 0x00C .word w)) = .next t ∧ t.latched = s.latched ∧ t.status.busy = true)
    ∧ (w = 0x000000FF → step (s.issuing (.write 0x00C .word w)) = exec .sreset (s.answered (.write .okay)))

/-- R88, R89: a command's step ends with BUSY 0 and DONE 1, either successful or with one error of the table, and then only
STATUS has changed. -/
def Obligations.CompletionSucceedsOrOnlyRecordsAnError : Prop :=
  ∀ (s : State) (i : Instr), i ≠ .sreset →
    ∃ t, exec i s = .next t ∧
      (t.status = ⟨false, true, false, s.status.wovr, 0x00⟩
        ∨ ∃ e : ErrorKind, t = { s with status := ⟨false, true, true, s.status.wovr, errorCode e⟩ })

/-- R55, R23, R25 to R30: what no command but the listed ones writes; DIGEST and the inputs are written by none. -/
def Obligations.CommandsWriteOnlyTheirListedResults : Prop :=
  ∀ (s t : State) (i : Instr), s.params.wellFormed = true → i ≠ .sreset → exec i s = .next t →
    (t.params = s.params ∧ t.ctrl = s.ctrl ∧ t.keylen = s.keylen ∧ t.latched = s.latched ∧ t.rstN = s.rstN ∧ t.draw = s.draw
      ∧ t.host = s.host ∧ t.schedule = s.schedule ∧ t.response = s.response ∧ t.status.wovr = s.status.wovr)
    ∧ (∀ k < 64, t.element .digest k = s.element .digest k)
    ∧ (i ∉ [Instr.trunc, .hotp, .steamcode] → t.offset = s.offset ∧ t.fullcode = s.fullcode)
    ∧ (i ∉ [Instr.decimal, .hotp, .steam, .steamcode] → t.code = s.code ∧ t.codelen = s.codelen)
    ∧ (i ≠ .b32enc → t.tlen = s.tlen ∧ ∀ k < s.params.tbufSize, t.element .tbuf k = s.element .tbuf k)
    ∧ (i ≠ .b32dec → t.blen = s.blen ∧ ∀ k < s.params.bbufSize, t.element .bbuf k = s.element .bbuf k)
    ∧ (i ∉ [Instr.b32enc, .b32dec] → ∀ a, t.ram a = s.ram a)

/-- R85: an error code is recorded only by the commands the table lists for it. -/
def Obligations.EachErrorCodeComesFromItsCommands : Prop :=
  ∀ (s t : State) (i : Instr), i ≠ .sreset → exec i s = .next t → t.status.err = true →
    ∃ r ∈ [((0x02 : Byte), [Instr.trunc, .hotp]), (0x03, [.trunc, .hotp, .steamcode]), (0x04, [.trunc, .hotp]),
        (0x05, [.trunc, .hotp]), (0x06, [.decimal, .hotp]), (0x10, [.b32dec]), (0x11, [.b32dec]), (0x12, [.b32dec]),
        (0x13, [.b32dec]), (0x20, [.b32enc, .b32dec])],
      t.status.errcode = r.1 ∧ i ∈ r.2

/-- R92: irq is IRQ_EN and DONE; it is up after every completion when enabled, of a command or of an illegal word; each of the
five causes clears it. -/
def Obligations.InterruptFollowsDoneAndEnable : Prop :=
  ∀ s : State,
    (s.irq = true ↔ s.ctrl.irqEn = true ∧ s.status.done = true)
    ∧ (∀ t, s.latched ≠ 0x000000FF → completeLatched s = .next t → t.irq = s.ctrl.irqEn)
    ∧ (∀ v t, v.getLsbD 1 = true → step (s.issuing (.write 0x010 .word v)) = .next t → t.irq = false)
    ∧ (∀ v t, v.getLsbD 8 = false → s.status.busy = false → step (s.issuing (.write 0x008 .word v)) = .next t → t.irq = false)
    ∧ (∀ w t, s.status.busy = false → step (s.issuing (.write 0x00C .word w)) = .next t → t.irq = false)
    ∧ (∀ t, step (s.issuing (.write 0x00C .word 0x000000FF)) = .next t → t.irq = false)
    ∧ (∀ rest t, s.rstN = false → s.schedule = .resetHigh :: rest → step s = .next t → t.irq = false)

/-! ## Control commands and resets -/

/-- R80: NOP changes nothing but STATUS, from any state. -/
def Obligations.NopChangesOnlyStatus : Prop :=
  ∀ s : State, exec .nop s = .next { s with status := ⟨false, true, false, s.status.wovr, 0x00⟩ }

/-- R81 at the meaning: SRESET completes from any state, every register is reset, the windows and the rest are kept. -/
def Obligations.SresetCompletesAndKeepsTheWindows : Prop :=
  ∀ s : State, ∃ t, exec .sreset s = .next t ∧ RegistersReset t
    ∧ t.params = s.params ∧ t.mem = s.mem ∧ t.draw = s.draw ∧ t.rstN = s.rstN ∧ t.host = s.host
    ∧ t.schedule = s.schedule ∧ t.response = s.response ∧ ∀ a, t.ram a = s.ram a

/-- R81: the word 0x000000FF written to CMD resets every register at once, whatever BUSY is, sets no flag, discards the
pending command and keeps DIGEST, BBUF and TBUF; a TRUNC after it fails with INVALID_SECRET. Every other word is
accepted when idle and dropped with WOVR set when busy, and resets nothing. -/
def Obligations.SresetWriteResetsAtOnce : Prop :=
  ∀ s : State,
    step (s.issuing (.write 0x00C .word 0x000000FF)) = exec .sreset (s.answered (.write .okay))
    ∧ (∃ t, step (s.issuing (.write 0x00C .word 0x000000FF)) = .next t ∧ RegistersReset t ∧ t.params = s.params
        ∧ t.host = s.host ∧ (∀ a, t.ram a = s.ram a)
        ∧ ∃ u, exec .trunc t = .next u ∧ u.status = ⟨false, true, true, false, 0x03⟩)
    ∧ ∀ w : Word, w ≠ 0x000000FF →
        step (s.issuing (.write 0x00C .word w)) =
          .next (if s.status.busy then { s.answered (.write .okay) with status := { s.status with wovr := true } }
            else { s.answered (.write .okay) with latched := w, status := ⟨true, false, false, s.status.wovr, 0x00⟩ })

/-- R102: when `rst_n` falls the pending command is lost and has committed nothing to RAM; while it is low the engine performs
nothing; when it rises every register has its reset value. That the registers already hold their reset values while `rst_n` is low
is the model's choice (log 5); the new draw of the RAM bytes is the model's form of U1 (log 2). -/
def Obligations.HardwareResetGivesTheResetState : Prop :=
  ∀ (s : State) (rest : List Turn),
    (s.rstN = true → s.schedule = .resetLow :: rest →
      ∃ t, step s = .next t ∧ t.rstN = false ∧ t.status.busy = false ∧ RegistersReset t ∧ t.params = s.params
        ∧ t.schedule = rest ∧ t.host = s.host ∧ t.mem = s.mem ∧ t.draw = s.draw)
    ∧ (s.rstN = false → s.schedule = .engine :: rest → step s = .next { s with schedule := rest })
    ∧ (s.rstN = false → s.schedule = .resetHigh :: rest →
      ∃ t, step s = .next t ∧ RegistersReset t ∧ t.rstN = true ∧ t.params = s.params ∧ t.schedule = rest ∧ t.host = s.host
        ∧ t.mem = [] ∧ t.draw = s.draw + 1)

/-- R32: the state right after hardware reset. That no RAM byte is written and the model's own fields are empty is the
model's choice (log 2, 3, 7, 8). -/
def Obligations.ResetStateHoldsTheResetValues : Prop :=
  RegistersReset State.reset ∧ State.reset.params = ⟨320, 512⟩ ∧ State.reset.rstN = true
    ∧ ∀ a, State.reset.ram a = Config.freeByte State.reset.draw a

/-! ## Base32 -/

/-- R62: B32ENC completes when BLEN fits BBUF; the text is R60's and R61's, TLEN its length, and nothing else changes. -/
def Obligations.B32encWritesTheBase32Text : Prop :=
  ∀ s : State, s.params.wellFormed = true → s.blen.toNat ≤ s.params.bbufSize →
    ∃ t, exec .b32enc s = .next t
      ∧ t = { s with
          mem := t.mem
          tlen := BitVec.ofNat 16 (8 * ((s.blen.toNat + 4) / 5))
          status := ⟨false, true, false, s.status.wovr, 0x00⟩ }
      ∧ (∀ k j, k < (s.blen.toNat + 4) / 5 → j < 8 → t.element .tbuf (8 * k + j) = s.encodedChar k j)
      ∧ ∀ a, a < Window.tbuf.base ∨ Window.tbuf.base + 8 * ((s.blen.toNat + 4) / 5) ≤ a → t.ram a = s.ram a

/-- R62: B32ENC's one error. -/
def Obligations.B32encRejectsALongBlen : Prop :=
  ∀ s : State, s.params.bbufSize < s.blen.toNat →
    exec .b32enc s = .next { s with status := ⟨false, true, true, s.status.wovr, 0x20⟩ }

/-- R63: the length of B32ENC's output is 8 * ceil(BLEN / 5), and it cannot overflow TBUF. -/
def Obligations.B32encCannotOverflowTbuf : Prop :=
  ∀ s t : State, s.params.wellFormed = true → s.blen.toNat ≤ s.params.bbufSize → exec .b32enc s = .next t →
    t.tlen.toNat = 8 * ((s.blen.toNat + 4) / 5) ∧ t.tlen.toNat ≤ s.params.tbufSize

/-- R66, R61, R68: B32DEC completes on legal text; byte j of the result is the stream's bits 8j to 8j + 7, the discarded bits
unchecked, BLEN their number, and nothing else changes. That non-zero discarded bits are accepted is the spec's own reading
(U9, log 17). -/
def Obligations.B32decWritesTheDecodedBytes : Prop :=
  ∀ (s : State) (q : Nat), s.params.wellFormed = true → s.tlen.toNat ≤ s.params.tbufSize →
    LegalBase32 s.textChar s.tlen.toNat q →
    ∃ t, exec .b32dec s = .next t
      ∧ t = { s with
          mem := t.mem
          blen := BitVec.ofNat 16 (5 * q / 8)
          status := ⟨false, true, false, s.status.wovr, 0x00⟩ }
      ∧ (∀ j x, j < 5 * q / 8 → x < 8 →
          (t.element .bbuf j).getLsbD (7 - x) = base32Bit s.textChar (8 * j + x))
      ∧ ∀ a, a < Window.bbuf.base ∨ Window.bbuf.base + 5 * q / 8 ≤ a → t.ram a = s.ram a

/-- R65: B32DEC of a text that fits the buffer succeeds if and only if the four conditions hold, and the empty text decodes
to no bytes. -/
def Obligations.B32decAcceptsExactlyLegalText : Prop :=
  ∀ s : State, s.params.wellFormed = true → s.tlen.toNat ≤ s.params.tbufSize →
    ∃ t, exec .b32dec s = .next t
      ∧ (t.status.err = false ↔ ∃ q, LegalBase32 s.textChar s.tlen.toNat q)
      ∧ (s.tlen = 0 → t.status.err = false ∧ t.blen = 0)

/-- R66, R90: B32DEC's errors, the first failing check giving the code, and only STATUS changing. The order is the spec's own
(U10, log 17). -/
def Obligations.B32decReportsTheFirstFailingCheck : Prop :=
  ∀ s : State,
    let n := s.tlen.toNat
    let fails := fun c : Byte => exec .b32dec s = .next { s with status := ⟨false, true, true, s.status.wovr, c⟩ }
    let okChars := ∀ i < n, s.textChar i ∈ base32Alphabet ∨ s.textChar i = 0x3D
    let suffixRun := fun q => q ≤ n ∧ (∀ i < q, s.textChar i ≠ 0x3D) ∧ ∀ i, q ≤ i → i < n → s.textChar i = 0x3D
    (s.params.tbufSize < n → fails 0x20)
    ∧ (n ≤ s.params.tbufSize → n % 8 ≠ 0 → fails 0x10)
    ∧ (n ≤ s.params.tbufSize → n % 8 = 0 → ¬ okChars → fails 0x11)
    ∧ (n ≤ s.params.tbufSize → n % 8 = 0 → okChars → (¬ ∃ q, suffixRun q) → fails 0x12)
    ∧ ∀ q, n ≤ s.params.tbufSize → n % 8 = 0 → okChars → suffixRun q → n - q ∉ [0, 1, 3, 4, 6] → fails 0x13

/-- R67: a legal text of n characters with a padding run of p gives (5(n - p)) div 8 bytes, its last group's q mod 8 data
characters go with p, and B32DEC cannot overflow BBUF. -/
def Obligations.B32decCannotOverflowBbuf : Prop :=
  ∀ (s t : State) (q : Nat), s.params.wellFormed = true → s.tlen.toNat ≤ s.params.tbufSize →
    LegalBase32 s.textChar s.tlen.toNat q → exec .b32dec s = .next t →
    let p := s.tlen.toNat - q
    t.blen.toNat = 5 * (s.tlen.toNat - p) / 8 ∧ t.blen.toNat ≤ s.params.bbufSize
      ∧ (p, q % 8, t.blen.toNat - 5 * (q / 8)) ∈ [(0, 0, 0), (6, 2, 1), (4, 4, 2), (3, 5, 3), (1, 7, 4)]

/-- R64: two texts that are the same after upper-casing decode alike, and TBUF is not changed. -/
def Obligations.B32decIgnoresLetterCase : Prop :=
  ∀ s₁ s₂ t₁ t₂ : State, s₁.params.wellFormed = true → s₁.tlen.toNat ≤ s₁.params.tbufSize →
    s₂.params = s₁.params → s₂.tlen = s₁.tlen → (∀ i < s₁.tlen.toNat, s₂.textChar i = s₁.textChar i) →
    exec .b32dec s₁ = .next t₁ → exec .b32dec s₂ = .next t₂ →
    t₂.status.err = t₁.status.err ∧ t₂.status.errcode = t₁.status.errcode
      ∧ (t₁.status.err = false → t₂.blen = t₁.blen ∧ ∀ j < t₁.blen.toNat, t₂.element .bbuf j = t₁.element .bbuf j)
      ∧ ∀ i < s₁.params.tbufSize, t₁.element .tbuf i = s₁.element .tbuf i ∧ t₂.element .tbuf i = s₂.element .tbuf i

/-- R69, the round trip: B32ENC, then B32DEC on its output, gives the bytes back, and neither fails. -/
def Obligations.B32decUndoesB32enc : Prop :=
  ∀ s : State, s.params.wellFormed = true → s.blen.toNat ≤ s.params.bbufSize →
    ∃ t u, exec .b32enc s = .next t ∧ t.status.err = false ∧ exec .b32dec t = .next u ∧ u.status.err = false
      ∧ u.blen = s.blen ∧ ∀ k < s.blen.toNat, u.element .bbuf k = s.element .bbuf k

/-- R69, the converse: B32ENC after B32DEC gives the text back only when it is upper case and its discarded bits are 0. -/
def Obligations.ReencodingNeedsCanonicalText : Prop :=
  ∀ (s t u : State) (q : Nat), s.params.wellFormed = true → s.tlen.toNat ≤ s.params.tbufSize →
    LegalBase32 s.textChar s.tlen.toNat q → exec .b32dec s = .next t → exec .b32enc t = .next u →
    u.tlen = s.tlen → (∀ i < s.tlen.toNat, u.element .tbuf i = s.element .tbuf i) →
    (∀ i < s.tlen.toNat, s.textChar i = s.element .tbuf i)
      ∧ ∀ x, 8 * (5 * q / 8) ≤ x → x < 5 * q → base32Bit s.textChar x = false

/-! ## Truncation -/

/-- R72, R74: TRUNC completes when its checks pass, with the offset and the 31-bit big-endian full code, and writes nothing
else. -/
def Obligations.TruncWritesOffsetAndFullCode : Prop :=
  ∀ (s : State) (len : Nat), (s.ctrl.alg, len) ∈ algorithms → s.keylen ≠ 0 →
    (s.ctrl.strict = true → 16 ≤ s.keylen.toNat ∧ s.ctrl.alg = 0) → s.selectedOffset len + 4 ≤ len →
    exec .trunc s = .next { s with
      offset := BitVec.ofNat 4 (s.selectedOffset len)
      fullcode := BitVec.ofNat 31 (s.selectedCode (s.selectedOffset len))
      status := ⟨false, true, false, s.status.wovr, 0x00⟩ }

/-- R72, R90: the errors of the full-code function, in order, for TRUNC and for HOTP. The order is the spec's own (U10, log 17). -/
def Obligations.FullCodeReportsTheFirstFailingCheck : Prop :=
  ∀ (s : State) (i : Instr), i = .trunc ∨ i = .hotp →
    let fails := fun c : Byte => exec i s = .next { s with status := ⟨false, true, true, s.status.wovr, c⟩ }
    (4 < s.ctrl.alg.toNat → fails 0x02)
    ∧ (s.ctrl.alg.toNat ≤ 4 → s.keylen = 0 → fails 0x03)
    ∧ (s.ctrl.alg.toNat ≤ 4 → s.ctrl.strict = true → s.keylen.toNat < 16 → fails 0x03)
    ∧ (s.ctrl.alg.toNat ≤ 4 → s.ctrl.strict = true → 16 ≤ s.keylen.toNat → s.ctrl.alg ≠ 0 → fails 0x04)
    ∧ ∀ len, (s.ctrl.alg, len) ∈ algorithms → s.keylen ≠ 0 →
        (s.ctrl.strict = true → 16 ≤ s.keylen.toNat ∧ s.ctrl.alg = 0) → len < s.selectedOffset len + 4 → fails 0x05

/-- R73: the offset is in 0..15; DIGEST_RANGE never occurs for the SHA lengths and for MD5 exactly when D[15][3:0] is 13 or
more; the full code is below 2^31; and the result depends on the low nibble of D[L-1] and on D[off..off+3] alone, which lie
in D[0..18]. -/
def Obligations.FullCodeReadsOnlyTheSelectedBytes : Prop :=
  ∀ (alg : BitVec 3) (len : Nat) (strict : Bool) (keylen : Word) (d d' : Nat → Byte), (alg, len) ∈ algorithms →
    (∀ off fc, fullCode alg strict keylen d = .ok (off, fc) →
      off.toNat = (d (len - 1)).toNat % 16 ∧ fc.toNat < 2 ^ 31 ∧ off.toNat + 3 ≤ 18 ∧ off.toNat + 3 < len)
    ∧ (fullCode alg strict keylen d = .error .digestRange →
        alg = 4 ∧ 13 ≤ (d 15).toNat % 16)
    ∧ (alg = 4 → keylen ≠ 0 → strict = false → 13 ≤ (d 15).toNat % 16 →
        fullCode alg strict keylen d = .error .digestRange)
    ∧ ((d' (len - 1)).toNat % 16 = (d (len - 1)).toNat % 16 →
        (∀ i < 4, (d (len - 1)).toNat % 16 + 4 ≤ len →
          d' ((d (len - 1)).toNat % 16 + i) = d ((d (len - 1)).toNat % 16 + i)) →
        fullCode alg strict keylen d' = fullCode alg strict keylen d)

/-- R75: DECIMAL with 6 to 9 digits completes with the digits of FULLCODE mod 10^d, left-zero-padded, CODELEN = d, and writes
nothing else; any other digit count gives INVALID_LENGTH. -/
def Obligations.DecimalWritesThePaddedDigits : Prop :=
  ∀ s : State,
    (6 ≤ s.ctrl.digits.toNat → s.ctrl.digits.toNat ≤ 9 →
      ∃ t, exec .decimal s = .next t
        ∧ t = { s with
            code := t.code
            codelen := BitVec.ofNat 5 s.ctrl.digits.toNat
            status := ⟨false, true, false, s.status.wovr, 0x00⟩ }
        ∧ DecimalText t s.ctrl.digits.toNat (s.fullcode.toNat % 10 ^ s.ctrl.digits.toNat))
    ∧ (s.ctrl.digits.toNat < 6 ∨ 9 < s.ctrl.digits.toNat →
        exec .decimal s = .next { s with status := ⟨false, true, true, s.status.wovr, 0x06⟩ })

/-- R78: STEAM always completes with the five least significant base-26 digits of FULLCODE in the Steam alphabet, least
significant first, and writes nothing else; only FULLCODE mod 26^5 matters. -/
def Obligations.SteamWritesFiveCharacters : Prop :=
  ∀ s : State,
    (∃ t, exec .steam s = .next t
      ∧ t = { s with code := t.code, codelen := 5, status := ⟨false, true, false, s.status.wovr, 0x00⟩ }
      ∧ SteamText t s.fullcode.toNat)
    ∧ ∀ fc : BitVec 31, fc.toNat % 26 ^ 5 = s.fullcode.toNat % 26 ^ 5 → steamChars fc = steamChars s.fullcode

/-- R76, R72, R75: HOTP completes when the checks pass and the digit count is 6 to 9; it writes OFFSET, FULLCODE, CODE and
CODELEN, and nothing else. -/
def Obligations.HotpWritesCodeOfTheDigest : Prop :=
  ∀ (s : State) (len : Nat), (s.ctrl.alg, len) ∈ algorithms → s.keylen ≠ 0 →
    (s.ctrl.strict = true → 16 ≤ s.keylen.toNat ∧ s.ctrl.alg = 0) → s.selectedOffset len + 4 ≤ len →
    6 ≤ s.ctrl.digits.toNat → s.ctrl.digits.toNat ≤ 9 →
    ∃ t, exec .hotp s = .next t
      ∧ t = { s with
          offset := BitVec.ofNat 4 (s.selectedOffset len)
          fullcode := BitVec.ofNat 31 (s.selectedCode (s.selectedOffset len))
          code := t.code
          codelen := BitVec.ofNat 5 s.ctrl.digits.toNat
          status := ⟨false, true, false, s.status.wovr, 0x00⟩ }
      ∧ DecimalText t s.ctrl.digits.toNat (s.selectedCode (s.selectedOffset len) % 10 ^ s.ctrl.digits.toNat)

/-- R76: HOTP is TRUNC then DECIMAL as one command, committing both or neither, and an invalid digit count is reported only
when the full-code function succeeds. -/
def Obligations.HotpIsTruncThenDecimal : Prop :=
  ∀ s t : State, exec .trunc s = .next t →
    (t.status.err = true → exec .hotp s = .next t)
    ∧ (t.status.err = false → ∀ u, exec .decimal t = .next u →
        (u.status.err = false → exec .hotp s = .next u)
        ∧ (u.status.err = true → exec .hotp s = .next { s with status := ⟨false, true, true, s.status.wovr, 0x06⟩ }))

/-- R79, R72, R78: STEAMCODE completes when KEYLEN passes its checks, whatever ALG and DIGITS are; it writes OFFSET,
FULLCODE, CODE and CODELEN from the first 20 digest bytes, and nothing else; else it fails with INVALID_SECRET. -/
def Obligations.SteamcodeWritesCodeOfTheSha1Digest : Prop :=
  ∀ s : State,
    (s.keylen ≠ 0 → (s.ctrl.strict = true → 16 ≤ s.keylen.toNat) →
      ∃ t, exec .steamcode s = .next t
        ∧ t = { s with
            offset := BitVec.ofNat 4 (s.selectedOffset 20)
            fullcode := BitVec.ofNat 31 (s.selectedCode (s.selectedOffset 20))
            code := t.code
            codelen := 5
            status := ⟨false, true, false, s.status.wovr, 0x00⟩ }
        ∧ SteamText t (s.selectedCode (s.selectedOffset 20)))
    ∧ (s.keylen = 0 ∨ (s.ctrl.strict = true ∧ s.keylen.toNat < 16) →
        exec .steamcode s = .next { s with status := ⟨false, true, true, s.status.wovr, 0x03⟩ })

/-- R79: the password of STEAMCODE is a function of KEYLEN, STRICT and DIGEST[0..19]. -/
def Obligations.SteamcodeDependsOnItsOperandsOnly : Prop :=
  ∀ s₁ s₂ t₁ t₂ : State, s₂.keylen = s₁.keylen → s₂.ctrl.strict = s₁.ctrl.strict →
    (∀ i < 20, s₂.element .digest i = s₁.element .digest i) →
    exec .steamcode s₁ = .next t₁ → exec .steamcode s₂ = .next t₂ →
    t₂.status.err = t₁.status.err ∧ t₂.status.errcode = t₁.status.errcode
      ∧ (t₁.status.err = false →
          t₂.code = t₁.code ∧ t₂.codelen = t₁.codelen ∧ t₂.offset = t₁.offset ∧ t₂.fullcode = t₁.fullcode)

/-- R104: if every byte a command reads has been written since reset, its effect does not depend on the draw of the
unspecified bytes, whatever that draw is (the draw is the model's own field, log 2, 3). -/
def Obligations.WrittenInputsMakeTheDrawIrrelevant : Prop :=
  ∀ (s t : State) (i : Instr) (draw : Nat), inputsWritten i s = true → exec i s = .next t →
    exec i { s with draw := draw } = .next { t with draw := draw }

/-! ## The bus -/

/-- R38, R39: a misaligned, wrong-size or unmapped transaction gets ERROR, changes no state, and a read of it returns 0; every
other one gets OKAY. -/
def Obligations.IllegalTransactionsChangeNothing : Prop :=
  ∀ (s : State) (a : Offset) (n : Size) (v : Word), s.params.wellFormed = true →
    (¬ LegalAccess s.params a.toNat n.bytes →
      step (s.issuing (.read a n)) = .next (s.answered (.read .error 0))
      ∧ step (s.issuing (.write a n v)) = .next (s.answered (.write .error)))
    ∧ (LegalAccess s.params a.toNat n.bytes →
      (∃ d, step (s.issuing (.read a n)) = .next (s.answered (.read .okay d)))
      ∧ ∃ t, step (s.issuing (.write a n v)) = .next t ∧ t.response = some (.write .okay))

/-- R36, R40: a legal window read returns element i + k in bits 8k+7:8k and 0 above, and changes nothing. Where the
response is kept is the model's choice, here and below (log 7). -/
def Obligations.WindowReadsUseLittleEndianLanes : Prop :=
  ∀ (s : State) (w : Window) (i : Nat) (n : Size), s.params.wellFormed = true → (w.base + i) % n.bytes = 0 →
    i + n.bytes ≤ w.size s.params →
    ∃ d : Word, step (s.issuing (.read (BitVec.ofNat 12 (w.base + i)) n)) = .next (s.answered (.read .okay d))
      ∧ (∀ k < n.bytes, d.extractLsb' (8 * k) 8 = s.element w (i + k)) ∧ d.toNat < 2 ^ (8 * n.bytes)

/-- R36, R41: an idle write to DIGEST, BBUF or TBUF changes the addressed bytes, byte k from bits 8k+7:8k, and no other byte
and no register. -/
def Obligations.IdleWindowWritesStoreTheirLanes : Prop :=
  ∀ (s : State) (w : Window) (i : Nat) (n : Size) (v : Word), s.params.wellFormed = true → w ≠ .code →
    (w.base + i) % n.bytes = 0 → i + n.bytes ≤ w.size s.params → s.status.busy = false →
    ∃ t, step (s.issuing (.write (BitVec.ofNat 12 (w.base + i)) n v)) = .next t
      ∧ t = { s.answered (.write .okay) with mem := t.mem }
      ∧ (∀ k < n.bytes, t.element w (i + k) = v.extractLsb' (8 * k) 8)
      ∧ ∀ a, a < w.base + i ∨ w.base + i + n.bytes ≤ a → t.ram a = s.ram a

/-- R20, R24, R26, R29, R30, R41, R43: what an idle write of each input register stores, bit by bit. -/
def Obligations.IdleRegisterWritesStoreTheirBits : Prop :=
  ∀ (s : State) (v : Word), s.status.busy = false →
    step (s.issuing (.write 0x008 .word v)) = .next { s.answered (.write .okay) with
      ctrl := ⟨BitVec.ofNat 3 v.toNat, v.getLsbD 3, BitVec.ofNat 4 (v.toNat / 16), v.getLsbD 8⟩ }
    ∧ step (s.issuing (.write 0x014 .word v)) = .next { s.answered (.write .okay) with keylen := v }
    ∧ step (s.issuing (.write 0x01C .word v)) =
        .next { s.answered (.write .okay) with fullcode := BitVec.ofNat 31 v.toNat }
    ∧ step (s.issuing (.write 0x024 .word v)) = .next { s.answered (.write .okay) with blen := BitVec.ofNat 16 v.toNat }
    ∧ step (s.issuing (.write 0x028 .word v)) = .next { s.answered (.write .okay) with tlen := BitVec.ofNat 16 v.toNat }

/-- R18, R19, R20 to R30: what a read of each register returns, field by field, with no side effect. -/
def Obligations.RegisterReadsReturnTheirFields : Prop :=
  ∀ s : State, s.params.wellFormed = true →
    let reads := fun (a : Offset) (v : Nat) =>
      step (s.issuing (.read a .word)) = .next (s.answered (.read .okay (BitVec.ofNat 32 v)))
    reads 0x000 0x4F545058 ∧ reads 0x004 0x00010000
    ∧ reads 0x008 (s.ctrl.alg.toNat + 8 * s.ctrl.strict.toNat + 16 * s.ctrl.digits.toNat + 256 * s.ctrl.irqEn.toNat)
    ∧ reads 0x00C 0
    ∧ reads 0x010 (s.status.busy.toNat + 2 * s.status.done.toNat + 4 * s.status.err.toNat + 8 * s.status.wovr.toNat
        + 256 * s.status.errcode.toNat)
    ∧ reads 0x014 s.keylen.toNat ∧ reads 0x018 s.offset.toNat ∧ reads 0x01C s.fullcode.toNat ∧ reads 0x020 s.codelen.toNat
    ∧ reads 0x024 s.blen.toNat ∧ reads 0x028 s.tlen.toNat
    ∧ reads 0x02C (s.params.bbufSize + 65536 * s.params.tbufSize)

/-- R18: ID and VERSION read their constants, and writes to either are ignored. -/
def Obligations.IdentificationIsConstant : Prop :=
  ∀ (s : State) (v : Word),
    step (s.issuing (.read 0x000 .word)) = .next (s.answered (.read .okay 0x4F545058))
    ∧ step (s.issuing (.read 0x004 .word)) = .next (s.answered (.read .okay 0x00010000))
    ∧ step (s.issuing (.write 0x000 .word v)) = .next (s.answered (.write .okay))
    ∧ step (s.issuing (.write 0x004 .word v)) = .next (s.answered (.write .okay))

/-- R19: PARAMS reads the buffer sizes, 0x02000140 with the defaults, and writes are ignored. -/
def Obligations.ParamsReadsTheBufferSizes : Prop :=
  ∀ (s : State) (v : Word),
    (s.params.wellFormed = true → ∃ d : Word, step (s.issuing (.read 0x02C .word)) = .next (s.answered (.read .okay d))
      ∧ (d.extractLsb' 0 16).toNat = s.params.bbufSize ∧ (d.extractLsb' 16 16).toNat = s.params.tbufSize)
    ∧ (s.params = Params.default →
        step (s.issuing (.read 0x02C .word)) = .next (s.answered (.read .okay 0x02000140)))
    ∧ step (s.issuing (.write 0x02C .word v)) = .next (s.answered (.write .okay))

/-- R42: a legal write to a read-only location answers OKAY and changes nothing, not even WOVR, busy or not. -/
def Obligations.ReadOnlyWritesAreIgnored : Prop :=
  ∀ (s : State) (a : Offset) (n : Size) (v : Word), LegalAccess s.params a.toNat n.bytes →
    a ∈ [(0x000 : Offset), 0x004, 0x018, 0x020, 0x02C] ∨ (0x030 ≤ a.toNat ∧ a.toNat < 0x040) →
    step (s.issuing (.write a n v)) = .next (s.answered (.write .okay))

/-- R107: while BUSY, a write to CTRL, CMD (but SRESET), KEYLEN, FULLCODE, BLEN, TLEN, DIGEST, BBUF or TBUF is dropped, sets
WOVR and gets OKAY; a write to STATUS is write-one-to-clear; SRESET is taken; read-only locations ignore writes. -/
def Obligations.BusyWritesAreDropped : Prop :=
  ∀ (s : State) (a : Offset) (n : Size) (v : Word), s.params.wellFormed = true → s.status.busy = true →
    LegalAccess s.params a.toNat n.bytes →
    (a ∈ [(0x008 : Offset), 0x00C, 0x014, 0x01C, 0x024, 0x028] ∨ 0x040 ≤ a.toNat → (a = 0x00C → v ≠ 0x000000FF) →
      step (s.issuing (.write a n v)) =
        .next { s.answered (.write .okay) with status := { s.status with wovr := true } })
    ∧ (a = 0x010 → step (s.issuing (.write a n v)) =
        .next { s.answered (.write .okay) with status :=
          ⟨true, s.status.done && !v.getLsbD 1, s.status.err && !v.getLsbD 2, s.status.wovr && !v.getLsbD 3,
            if v.getLsbD 2 then 0x00 else s.status.errcode⟩ })
    ∧ (a = 0x00C → v = 0x000000FF →
        step (s.issuing (.write a n v)) = exec .sreset (s.answered (.write .okay)))
    ∧ (a ∈ [(0x000 : Offset), 0x004, 0x018, 0x020, 0x02C] ∨ (0x030 ≤ a.toNat ∧ a.toNat < 0x040) →
        step (s.issuing (.write a n v)) = .next (s.answered (.write .okay)))

/-- R22, R94: a STATUS write clears DONE, ERR (with ERRCODE) and WOVR where it writes 1, keeps them where it writes 0, and
changes nothing else, busy or not. -/
def Obligations.StatusWritesClearWhereOne : Prop :=
  ∀ (s : State) (v : Word), ∃ t, step (s.issuing (.write 0x010 .word v)) = .next t
    ∧ t = { s.answered (.write .okay) with status := t.status }
    ∧ t.status.busy = s.status.busy
    ∧ (t.status.done = true ↔ s.status.done = true ∧ v.getLsbD 1 = false)
    ∧ (t.status.err = true ↔ s.status.err = true ∧ v.getLsbD 2 = false)
    ∧ (t.status.wovr = true ↔ s.status.wovr = true ∧ v.getLsbD 3 = false)
    ∧ (v.getLsbD 2 = true → t.status.errcode = 0x00) ∧ (v.getLsbD 2 = false → t.status.errcode = s.status.errcode)

/-- R43: reserved register bits read 0 and writes to them are ignored; a command word's reserved bits are not ignored. -/
def Obligations.ReservedBitsReadZeroAndIgnoreWrites : Prop :=
  (∀ (s : State) (r : Reg × Nat),
      r ∈ [(Reg.ctrl, 0x000001FF), (.status, 0x0000FF0F), (.offset, 0x0000000F), (.fullcode, 0x7FFFFFFF),
        (.codelen, 0x0000001F), (.blen, 0x0000FFFF), (.tlen, 0x0000FFFF)] →
      readReg s r.1 &&& ~~~(BitVec.ofNat 32 r.2) = 0
      ∧ ∀ v v' : Word, v &&& BitVec.ofNat 32 r.2 = v' &&& BitVec.ofNat 32 r.2 → writeReg v s r.1 = writeReg v' s r.1)
    ∧ ∀ w : Word, 256 ≤ w.toNat → ∃ e, decodeWord w = .error e

/-- R46 items 1 and 3, R108, R107: while a command is pending, no host turn but an SRESET write changes what it reads or
writes; only STATUS.DONE, ERR, WOVR and ERRCODE, the host's own fields and the schedule may change, and BUSY stays. Those fields are the
model's own (log 1, 7, 8). -/
def Obligations.HostCannotChangeAPendingCommand : Prop :=
  ∀ (s : State) (op : HostOp) (rest : List HostOp) (ts : List Turn), s.rstN = true → s.status.busy = true →
    s.schedule = .host :: ts → s.host = op :: rest → op ≠ .txn (.write 0x00C .word 0x000000FF) →
    ∃ t, step s = .next t ∧ t.status.busy = true
      ∧ t = { s with status := t.status, host := t.host, schedule := ts, response := t.response }
      ∧ (t.host = rest ∨ (op = .wait ∧ t.host = s.host))

/-- R58: WAIT is a loop of STATUS reads that ends on the first with BUSY = 0: one round answers what `RD32 0x010` answers, the
whole of STATUS, and WAIT stays while bit 0 of that value is 1. Its form as one operation is the model's (log 12). -/
def Obligations.WaitPollsUntilIdle : Prop :=
  ∀ (s : State) (rest : List HostOp) (ts : List Turn), s.rstN = true → s.schedule = .host :: ts → s.host = .wait :: rest →
    let v := statusWord s.status
    step s = .next { s with
        schedule := ts
        host := if v.getLsbD 0 then s.host else rest
        response := some (.read .okay v) }
      ∧ busRead s 0x010 .word = .read .okay v
      ∧ v.getLsbD 0 = s.status.busy

/-! ## The whole machine -/

/-- Every step keeps the invariant: legal sizes, canonical memory within the windows, a consistent STATUS, CODE agreeing with
CODELEN, no pending SRESET word, and nothing pending in reset (this last clause is the model's choice, log 5). -/
def Obligations.StepKeepsTheInvariant : Prop :=
  ∀ s t : State, Inv s → step s = .next t → Inv t

/-- The state after hardware reset meets the invariant. -/
def Obligations.ResetMeetsTheInvariant : Prop := Inv State.reset

/-- R102, U3: the machine stops only on a host turn with an operation pending while `rst_n` is low, and it refuses nothing. The
fault is the model's form of a transaction without a step (log 6). -/
def Obligations.OnlyATransactionInResetStops : Prop :=
  ∀ s : State,
    (∀ f, step s = .fault f ↔
      f = .transactionDuringReset ∧ s.rstN = false ∧ (∃ ts, s.schedule = .host :: ts) ∧ s.host ≠ [])
    ∧ ∀ r, step s ≠ .refused r

/-- R102: a host that keeps quiet in reset has a run that never stops. The schedule is the model's form of the open
interleaving (log 1); the fault, and that by default nobody moves in reset, are the model's choices (log 6). -/
def Obligations.QuietHostRunsSafely : Prop :=
  ∀ s : State, quietInReset s.rstN s.schedule = true → SafeRun s

/-- R110, R111: with the pin high and no reset scheduled, every run reaches its end of run within a bound, whatever the
interleaving; the form of the fairness is the model's (log 1). -/
def Obligations.EveryRunEnds : Prop :=
  ∀ s : State, s.rstN = true → pinFree s.schedule = true →
    ∃ t, Sys2Proof.core.run (s.schedule.length + 2 * s.host.length + 1) s = .next t ∧ t.finished = true

/-- R102: that the host keeps quiet in reset is kept by every step, and such a step never stops. The schedule is the model's form
of the open interleaving (log 1); the fault, and that by default nobody moves in reset, are the model's choices (log 6). -/
def Obligations.QuietStepsStayQuiet : Prop :=
  ∀ s : State, quietInReset s.rstN s.schedule = true →
    ∃ t, step s = .next t ∧ quietInReset t.rstN t.schedule = true
end

