-- ==== Sys2Proof/Laws/State.lean ====
section
/-! SUPPORT. One lemma per field per update of State, each true by unfolding, so that no proof unfolds a record update. -/

namespace Sys2Proof.Machine

/-! ## accept -/

@[simp] theorem accept_params (w : Word) (s : State) : (accept w s).params = s.params := rfl
@[simp] theorem accept_ctrl (w : Word) (s : State) : (accept w s).ctrl = s.ctrl := rfl
@[simp] theorem accept_status (w : Word) (s : State) : (accept w s).status = acceptStatus s.status := rfl
@[simp] theorem accept_keylen (w : Word) (s : State) : (accept w s).keylen = s.keylen := rfl
@[simp] theorem accept_offset (w : Word) (s : State) : (accept w s).offset = s.offset := rfl
@[simp] theorem accept_fullcode (w : Word) (s : State) : (accept w s).fullcode = s.fullcode := rfl
@[simp] theorem accept_codelen (w : Word) (s : State) : (accept w s).codelen = s.codelen := rfl
@[simp] theorem accept_blen (w : Word) (s : State) : (accept w s).blen = s.blen := rfl
@[simp] theorem accept_tlen (w : Word) (s : State) : (accept w s).tlen = s.tlen := rfl
@[simp] theorem accept_code (w : Word) (s : State) : (accept w s).code = s.code := rfl
@[simp] theorem accept_mem (w : Word) (s : State) : (accept w s).mem = s.mem := rfl
@[simp] theorem accept_latched (w : Word) (s : State) : (accept w s).latched = w := rfl
@[simp] theorem accept_rstN (w : Word) (s : State) : (accept w s).rstN = s.rstN := rfl
@[simp] theorem accept_draw (w : Word) (s : State) : (accept w s).draw = s.draw := rfl
@[simp] theorem accept_host (w : Word) (s : State) : (accept w s).host = s.host := rfl
@[simp] theorem accept_schedule (w : Word) (s : State) : (accept w s).schedule = s.schedule := rfl
@[simp] theorem accept_response (w : Word) (s : State) : (accept w s).response = s.response := rfl

/-! ## succeed -/

@[simp] theorem succeed_params (s : State) : (succeed s).params = s.params := rfl
@[simp] theorem succeed_ctrl (s : State) : (succeed s).ctrl = s.ctrl := rfl
@[simp] theorem succeed_status (s : State) : (succeed s).status = successStatus s.status := rfl
@[simp] theorem succeed_keylen (s : State) : (succeed s).keylen = s.keylen := rfl
@[simp] theorem succeed_offset (s : State) : (succeed s).offset = s.offset := rfl
@[simp] theorem succeed_fullcode (s : State) : (succeed s).fullcode = s.fullcode := rfl
@[simp] theorem succeed_codelen (s : State) : (succeed s).codelen = s.codelen := rfl
@[simp] theorem succeed_blen (s : State) : (succeed s).blen = s.blen := rfl
@[simp] theorem succeed_tlen (s : State) : (succeed s).tlen = s.tlen := rfl
@[simp] theorem succeed_code (s : State) : (succeed s).code = s.code := rfl
@[simp] theorem succeed_mem (s : State) : (succeed s).mem = s.mem := rfl
@[simp] theorem succeed_latched (s : State) : (succeed s).latched = s.latched := rfl
@[simp] theorem succeed_rstN (s : State) : (succeed s).rstN = s.rstN := rfl
@[simp] theorem succeed_draw (s : State) : (succeed s).draw = s.draw := rfl
@[simp] theorem succeed_host (s : State) : (succeed s).host = s.host := rfl
@[simp] theorem succeed_schedule (s : State) : (succeed s).schedule = s.schedule := rfl
@[simp] theorem succeed_response (s : State) : (succeed s).response = s.response := rfl

/-! ## raise -/

@[simp] theorem raise_params (e : ErrorKind) (s : State) : (raise e s).params = s.params := rfl
@[simp] theorem raise_ctrl (e : ErrorKind) (s : State) : (raise e s).ctrl = s.ctrl := rfl
@[simp] theorem raise_status (e : ErrorKind) (s : State) : (raise e s).status = errorStatus e s.status := rfl
@[simp] theorem raise_keylen (e : ErrorKind) (s : State) : (raise e s).keylen = s.keylen := rfl
@[simp] theorem raise_offset (e : ErrorKind) (s : State) : (raise e s).offset = s.offset := rfl
@[simp] theorem raise_fullcode (e : ErrorKind) (s : State) : (raise e s).fullcode = s.fullcode := rfl
@[simp] theorem raise_codelen (e : ErrorKind) (s : State) : (raise e s).codelen = s.codelen := rfl
@[simp] theorem raise_blen (e : ErrorKind) (s : State) : (raise e s).blen = s.blen := rfl
@[simp] theorem raise_tlen (e : ErrorKind) (s : State) : (raise e s).tlen = s.tlen := rfl
@[simp] theorem raise_code (e : ErrorKind) (s : State) : (raise e s).code = s.code := rfl
@[simp] theorem raise_mem (e : ErrorKind) (s : State) : (raise e s).mem = s.mem := rfl
@[simp] theorem raise_latched (e : ErrorKind) (s : State) : (raise e s).latched = s.latched := rfl
@[simp] theorem raise_rstN (e : ErrorKind) (s : State) : (raise e s).rstN = s.rstN := rfl
@[simp] theorem raise_draw (e : ErrorKind) (s : State) : (raise e s).draw = s.draw := rfl
@[simp] theorem raise_host (e : ErrorKind) (s : State) : (raise e s).host = s.host := rfl
@[simp] theorem raise_schedule (e : ErrorKind) (s : State) : (raise e s).schedule = s.schedule := rfl
@[simp] theorem raise_response (e : ErrorKind) (s : State) : (raise e s).response = s.response := rfl

/-! ## acknowledge -/

@[simp] theorem acknowledge_params (v : Word) (s : State) : (acknowledge v s).params = s.params := rfl
@[simp] theorem acknowledge_ctrl (v : Word) (s : State) : (acknowledge v s).ctrl = s.ctrl := rfl
@[simp] theorem acknowledge_status (v : Word) (s : State) : (acknowledge v s).status = clearStatus v s.status := rfl
@[simp] theorem acknowledge_keylen (v : Word) (s : State) : (acknowledge v s).keylen = s.keylen := rfl
@[simp] theorem acknowledge_offset (v : Word) (s : State) : (acknowledge v s).offset = s.offset := rfl
@[simp] theorem acknowledge_fullcode (v : Word) (s : State) : (acknowledge v s).fullcode = s.fullcode := rfl
@[simp] theorem acknowledge_codelen (v : Word) (s : State) : (acknowledge v s).codelen = s.codelen := rfl
@[simp] theorem acknowledge_blen (v : Word) (s : State) : (acknowledge v s).blen = s.blen := rfl
@[simp] theorem acknowledge_tlen (v : Word) (s : State) : (acknowledge v s).tlen = s.tlen := rfl
@[simp] theorem acknowledge_code (v : Word) (s : State) : (acknowledge v s).code = s.code := rfl
@[simp] theorem acknowledge_mem (v : Word) (s : State) : (acknowledge v s).mem = s.mem := rfl
@[simp] theorem acknowledge_latched (v : Word) (s : State) : (acknowledge v s).latched = s.latched := rfl
@[simp] theorem acknowledge_rstN (v : Word) (s : State) : (acknowledge v s).rstN = s.rstN := rfl
@[simp] theorem acknowledge_draw (v : Word) (s : State) : (acknowledge v s).draw = s.draw := rfl
@[simp] theorem acknowledge_host (v : Word) (s : State) : (acknowledge v s).host = s.host := rfl
@[simp] theorem acknowledge_schedule (v : Word) (s : State) : (acknowledge v s).schedule = s.schedule := rfl
@[simp] theorem acknowledge_response (v : Word) (s : State) : (acknowledge v s).response = s.response := rfl

/-! ## dropWrite -/

@[simp] theorem dropWrite_params (s : State) : (dropWrite s).params = s.params := rfl
@[simp] theorem dropWrite_ctrl (s : State) : (dropWrite s).ctrl = s.ctrl := rfl
@[simp] theorem dropWrite_status (s : State) : (dropWrite s).status = overrunStatus s.status := rfl
@[simp] theorem dropWrite_keylen (s : State) : (dropWrite s).keylen = s.keylen := rfl
@[simp] theorem dropWrite_offset (s : State) : (dropWrite s).offset = s.offset := rfl
@[simp] theorem dropWrite_fullcode (s : State) : (dropWrite s).fullcode = s.fullcode := rfl
@[simp] theorem dropWrite_codelen (s : State) : (dropWrite s).codelen = s.codelen := rfl
@[simp] theorem dropWrite_blen (s : State) : (dropWrite s).blen = s.blen := rfl
@[simp] theorem dropWrite_tlen (s : State) : (dropWrite s).tlen = s.tlen := rfl
@[simp] theorem dropWrite_code (s : State) : (dropWrite s).code = s.code := rfl
@[simp] theorem dropWrite_mem (s : State) : (dropWrite s).mem = s.mem := rfl
@[simp] theorem dropWrite_latched (s : State) : (dropWrite s).latched = s.latched := rfl
@[simp] theorem dropWrite_rstN (s : State) : (dropWrite s).rstN = s.rstN := rfl
@[simp] theorem dropWrite_draw (s : State) : (dropWrite s).draw = s.draw := rfl
@[simp] theorem dropWrite_host (s : State) : (dropWrite s).host = s.host := rfl
@[simp] theorem dropWrite_schedule (s : State) : (dropWrite s).schedule = s.schedule := rfl
@[simp] theorem dropWrite_response (s : State) : (dropWrite s).response = s.response := rfl

/-! ## softReset -/

@[simp] theorem softReset_params (s : State) : (softReset s).params = s.params := rfl
@[simp] theorem softReset_ctrl (s : State) : (softReset s).ctrl = Ctrl.reset := rfl
@[simp] theorem softReset_status (s : State) : (softReset s).status = Status.reset := rfl
@[simp] theorem softReset_keylen (s : State) : (softReset s).keylen = 0 := rfl
@[simp] theorem softReset_offset (s : State) : (softReset s).offset = 0 := rfl
@[simp] theorem softReset_fullcode (s : State) : (softReset s).fullcode = 0 := rfl
@[simp] theorem softReset_codelen (s : State) : (softReset s).codelen = 0 := rfl
@[simp] theorem softReset_blen (s : State) : (softReset s).blen = 0 := rfl
@[simp] theorem softReset_tlen (s : State) : (softReset s).tlen = 0 := rfl
@[simp] theorem softReset_code (s : State) : (softReset s).code = Vector.replicate 16 0x00 := rfl
@[simp] theorem softReset_mem (s : State) : (softReset s).mem = s.mem := rfl
@[simp] theorem softReset_latched (s : State) : (softReset s).latched = 0x00000000 := rfl
@[simp] theorem softReset_rstN (s : State) : (softReset s).rstN = s.rstN := rfl
@[simp] theorem softReset_draw (s : State) : (softReset s).draw = s.draw := rfl
@[simp] theorem softReset_host (s : State) : (softReset s).host = s.host := rfl
@[simp] theorem softReset_schedule (s : State) : (softReset s).schedule = s.schedule := rfl
@[simp] theorem softReset_response (s : State) : (softReset s).response = s.response := rfl

/-! ## writeRam -/

@[simp] theorem writeRam_params (a : Nat) (bs : List Byte) (s : State) : (s.writeRam a bs).params = s.params := rfl
@[simp] theorem writeRam_ctrl (a : Nat) (bs : List Byte) (s : State) : (s.writeRam a bs).ctrl = s.ctrl := rfl
@[simp] theorem writeRam_status (a : Nat) (bs : List Byte) (s : State) : (s.writeRam a bs).status = s.status := rfl
@[simp] theorem writeRam_keylen (a : Nat) (bs : List Byte) (s : State) : (s.writeRam a bs).keylen = s.keylen := rfl
@[simp] theorem writeRam_offset (a : Nat) (bs : List Byte) (s : State) : (s.writeRam a bs).offset = s.offset := rfl
@[simp] theorem writeRam_fullcode (a : Nat) (bs : List Byte) (s : State) : (s.writeRam a bs).fullcode = s.fullcode := rfl
@[simp] theorem writeRam_codelen (a : Nat) (bs : List Byte) (s : State) : (s.writeRam a bs).codelen = s.codelen := rfl
@[simp] theorem writeRam_blen (a : Nat) (bs : List Byte) (s : State) : (s.writeRam a bs).blen = s.blen := rfl
@[simp] theorem writeRam_tlen (a : Nat) (bs : List Byte) (s : State) : (s.writeRam a bs).tlen = s.tlen := rfl
@[simp] theorem writeRam_code (a : Nat) (bs : List Byte) (s : State) : (s.writeRam a bs).code = s.code := rfl
@[simp] theorem writeRam_mem (a : Nat) (bs : List Byte) (s : State) : (s.writeRam a bs).mem = s.mem.setList a bs := rfl
@[simp] theorem writeRam_latched (a : Nat) (bs : List Byte) (s : State) : (s.writeRam a bs).latched = s.latched := rfl
@[simp] theorem writeRam_rstN (a : Nat) (bs : List Byte) (s : State) : (s.writeRam a bs).rstN = s.rstN := rfl
@[simp] theorem writeRam_draw (a : Nat) (bs : List Byte) (s : State) : (s.writeRam a bs).draw = s.draw := rfl
@[simp] theorem writeRam_host (a : Nat) (bs : List Byte) (s : State) : (s.writeRam a bs).host = s.host := rfl
@[simp] theorem writeRam_schedule (a : Nat) (bs : List Byte) (s : State) : (s.writeRam a bs).schedule = s.schedule := rfl
@[simp] theorem writeRam_response (a : Nat) (bs : List Byte) (s : State) : (s.writeRam a bs).response = s.response := rfl

/-! ## commitText -/

@[simp] theorem commitText_params (out : List Byte) (s : State) : (commitText out s).params = s.params := rfl
@[simp] theorem commitText_ctrl (out : List Byte) (s : State) : (commitText out s).ctrl = s.ctrl := rfl
@[simp] theorem commitText_status (out : List Byte) (s : State) : (commitText out s).status = s.status := rfl
@[simp] theorem commitText_keylen (out : List Byte) (s : State) : (commitText out s).keylen = s.keylen := rfl
@[simp] theorem commitText_offset (out : List Byte) (s : State) : (commitText out s).offset = s.offset := rfl
@[simp] theorem commitText_fullcode (out : List Byte) (s : State) : (commitText out s).fullcode = s.fullcode := rfl
@[simp] theorem commitText_codelen (out : List Byte) (s : State) : (commitText out s).codelen = s.codelen := rfl
@[simp] theorem commitText_blen (out : List Byte) (s : State) : (commitText out s).blen = s.blen := rfl
@[simp] theorem commitText_tlen (out : List Byte) (s : State) : (commitText out s).tlen = BitVec.ofNat 16 out.length := rfl
@[simp] theorem commitText_code (out : List Byte) (s : State) : (commitText out s).code = s.code := rfl
@[simp] theorem commitText_mem (out : List Byte) (s : State) : (commitText out s).mem = s.mem.setList Window.tbuf.base out := rfl
@[simp] theorem commitText_latched (out : List Byte) (s : State) : (commitText out s).latched = s.latched := rfl
@[simp] theorem commitText_rstN (out : List Byte) (s : State) : (commitText out s).rstN = s.rstN := rfl
@[simp] theorem commitText_draw (out : List Byte) (s : State) : (commitText out s).draw = s.draw := rfl
@[simp] theorem commitText_host (out : List Byte) (s : State) : (commitText out s).host = s.host := rfl
@[simp] theorem commitText_schedule (out : List Byte) (s : State) : (commitText out s).schedule = s.schedule := rfl
@[simp] theorem commitText_response (out : List Byte) (s : State) : (commitText out s).response = s.response := rfl

/-! ## commitBytes -/

@[simp] theorem commitBytes_params (out : List Byte) (s : State) : (commitBytes out s).params = s.params := rfl
@[simp] theorem commitBytes_ctrl (out : List Byte) (s : State) : (commitBytes out s).ctrl = s.ctrl := rfl
@[simp] theorem commitBytes_status (out : List Byte) (s : State) : (commitBytes out s).status = s.status := rfl
@[simp] theorem commitBytes_keylen (out : List Byte) (s : State) : (commitBytes out s).keylen = s.keylen := rfl
@[simp] theorem commitBytes_offset (out : List Byte) (s : State) : (commitBytes out s).offset = s.offset := rfl
@[simp] theorem commitBytes_fullcode (out : List Byte) (s : State) : (commitBytes out s).fullcode = s.fullcode := rfl
@[simp] theorem commitBytes_codelen (out : List Byte) (s : State) : (commitBytes out s).codelen = s.codelen := rfl
@[simp] theorem commitBytes_blen (out : List Byte) (s : State) : (commitBytes out s).blen = BitVec.ofNat 16 out.length := rfl
@[simp] theorem commitBytes_tlen (out : List Byte) (s : State) : (commitBytes out s).tlen = s.tlen := rfl
@[simp] theorem commitBytes_code (out : List Byte) (s : State) : (commitBytes out s).code = s.code := rfl
@[simp] theorem commitBytes_mem (out : List Byte) (s : State) : (commitBytes out s).mem = s.mem.setList Window.bbuf.base out := rfl
@[simp] theorem commitBytes_latched (out : List Byte) (s : State) : (commitBytes out s).latched = s.latched := rfl
@[simp] theorem commitBytes_rstN (out : List Byte) (s : State) : (commitBytes out s).rstN = s.rstN := rfl
@[simp] theorem commitBytes_draw (out : List Byte) (s : State) : (commitBytes out s).draw = s.draw := rfl
@[simp] theorem commitBytes_host (out : List Byte) (s : State) : (commitBytes out s).host = s.host := rfl
@[simp] theorem commitBytes_schedule (out : List Byte) (s : State) : (commitBytes out s).schedule = s.schedule := rfl
@[simp] theorem commitBytes_response (out : List Byte) (s : State) : (commitBytes out s).response = s.response := rfl

/-! ## commitFullCode -/

@[simp] theorem commitFullCode_params (off : BitVec 4) (fc : BitVec 31) (s : State) : (commitFullCode off fc s).params = s.params := rfl
@[simp] theorem commitFullCode_ctrl (off : BitVec 4) (fc : BitVec 31) (s : State) : (commitFullCode off fc s).ctrl = s.ctrl := rfl
@[simp] theorem commitFullCode_status (off : BitVec 4) (fc : BitVec 31) (s : State) : (commitFullCode off fc s).status = s.status := rfl
@[simp] theorem commitFullCode_keylen (off : BitVec 4) (fc : BitVec 31) (s : State) : (commitFullCode off fc s).keylen = s.keylen := rfl
@[simp] theorem commitFullCode_offset (off : BitVec 4) (fc : BitVec 31) (s : State) : (commitFullCode off fc s).offset = off := rfl
@[simp] theorem commitFullCode_fullcode (off : BitVec 4) (fc : BitVec 31) (s : State) : (commitFullCode off fc s).fullcode = fc := rfl
@[simp] theorem commitFullCode_codelen (off : BitVec 4) (fc : BitVec 31) (s : State) : (commitFullCode off fc s).codelen = s.codelen := rfl
@[simp] theorem commitFullCode_blen (off : BitVec 4) (fc : BitVec 31) (s : State) : (commitFullCode off fc s).blen = s.blen := rfl
@[simp] theorem commitFullCode_tlen (off : BitVec 4) (fc : BitVec 31) (s : State) : (commitFullCode off fc s).tlen = s.tlen := rfl
@[simp] theorem commitFullCode_code (off : BitVec 4) (fc : BitVec 31) (s : State) : (commitFullCode off fc s).code = s.code := rfl
@[simp] theorem commitFullCode_mem (off : BitVec 4) (fc : BitVec 31) (s : State) : (commitFullCode off fc s).mem = s.mem := rfl
@[simp] theorem commitFullCode_latched (off : BitVec 4) (fc : BitVec 31) (s : State) : (commitFullCode off fc s).latched = s.latched := rfl
@[simp] theorem commitFullCode_rstN (off : BitVec 4) (fc : BitVec 31) (s : State) : (commitFullCode off fc s).rstN = s.rstN := rfl
@[simp] theorem commitFullCode_draw (off : BitVec 4) (fc : BitVec 31) (s : State) : (commitFullCode off fc s).draw = s.draw := rfl
@[simp] theorem commitFullCode_host (off : BitVec 4) (fc : BitVec 31) (s : State) : (commitFullCode off fc s).host = s.host := rfl
@[simp] theorem commitFullCode_schedule (off : BitVec 4) (fc : BitVec 31) (s : State) : (commitFullCode off fc s).schedule = s.schedule := rfl
@[simp] theorem commitFullCode_response (off : BitVec 4) (fc : BitVec 31) (s : State) : (commitFullCode off fc s).response = s.response := rfl

/-! ## commitCode -/

@[simp] theorem commitCode_params (c : Vector Byte 16) (n : BitVec 5) (s : State) : (commitCode c n s).params = s.params := rfl
@[simp] theorem commitCode_ctrl (c : Vector Byte 16) (n : BitVec 5) (s : State) : (commitCode c n s).ctrl = s.ctrl := rfl
@[simp] theorem commitCode_status (c : Vector Byte 16) (n : BitVec 5) (s : State) : (commitCode c n s).status = s.status := rfl
@[simp] theorem commitCode_keylen (c : Vector Byte 16) (n : BitVec 5) (s : State) : (commitCode c n s).keylen = s.keylen := rfl
@[simp] theorem commitCode_offset (c : Vector Byte 16) (n : BitVec 5) (s : State) : (commitCode c n s).offset = s.offset := rfl
@[simp] theorem commitCode_fullcode (c : Vector Byte 16) (n : BitVec 5) (s : State) : (commitCode c n s).fullcode = s.fullcode := rfl
@[simp] theorem commitCode_codelen (c : Vector Byte 16) (n : BitVec 5) (s : State) : (commitCode c n s).codelen = n := rfl
@[simp] theorem commitCode_blen (c : Vector Byte 16) (n : BitVec 5) (s : State) : (commitCode c n s).blen = s.blen := rfl
@[simp] theorem commitCode_tlen (c : Vector Byte 16) (n : BitVec 5) (s : State) : (commitCode c n s).tlen = s.tlen := rfl
@[simp] theorem commitCode_code (c : Vector Byte 16) (n : BitVec 5) (s : State) : (commitCode c n s).code = c := rfl
@[simp] theorem commitCode_mem (c : Vector Byte 16) (n : BitVec 5) (s : State) : (commitCode c n s).mem = s.mem := rfl
@[simp] theorem commitCode_latched (c : Vector Byte 16) (n : BitVec 5) (s : State) : (commitCode c n s).latched = s.latched := rfl
@[simp] theorem commitCode_rstN (c : Vector Byte 16) (n : BitVec 5) (s : State) : (commitCode c n s).rstN = s.rstN := rfl
@[simp] theorem commitCode_draw (c : Vector Byte 16) (n : BitVec 5) (s : State) : (commitCode c n s).draw = s.draw := rfl
@[simp] theorem commitCode_host (c : Vector Byte 16) (n : BitVec 5) (s : State) : (commitCode c n s).host = s.host := rfl
@[simp] theorem commitCode_schedule (c : Vector Byte 16) (n : BitVec 5) (s : State) : (commitCode c n s).schedule = s.schedule := rfl
@[simp] theorem commitCode_response (c : Vector Byte 16) (n : BitVec 5) (s : State) : (commitCode c n s).response = s.response := rfl

/-! ## assertReset -/

@[simp] theorem assertReset_params (s : State) : (assertReset s).params = s.params := rfl
@[simp] theorem assertReset_ctrl (s : State) : (assertReset s).ctrl = Ctrl.reset := rfl
@[simp] theorem assertReset_status (s : State) : (assertReset s).status = Status.reset := rfl
@[simp] theorem assertReset_keylen (s : State) : (assertReset s).keylen = 0 := rfl
@[simp] theorem assertReset_offset (s : State) : (assertReset s).offset = 0 := rfl
@[simp] theorem assertReset_fullcode (s : State) : (assertReset s).fullcode = 0 := rfl
@[simp] theorem assertReset_codelen (s : State) : (assertReset s).codelen = 0 := rfl
@[simp] theorem assertReset_blen (s : State) : (assertReset s).blen = 0 := rfl
@[simp] theorem assertReset_tlen (s : State) : (assertReset s).tlen = 0 := rfl
@[simp] theorem assertReset_code (s : State) : (assertReset s).code = Vector.replicate 16 0x00 := rfl
@[simp] theorem assertReset_mem (s : State) : (assertReset s).mem = s.mem := rfl
@[simp] theorem assertReset_latched (s : State) : (assertReset s).latched = 0x00000000 := rfl
@[simp] theorem assertReset_rstN (s : State) : (assertReset s).rstN = false := rfl
@[simp] theorem assertReset_draw (s : State) : (assertReset s).draw = s.draw := rfl
@[simp] theorem assertReset_host (s : State) : (assertReset s).host = s.host := rfl
@[simp] theorem assertReset_schedule (s : State) : (assertReset s).schedule = s.schedule := rfl
@[simp] theorem assertReset_response (s : State) : (assertReset s).response = s.response := rfl

/-! ## releaseReset -/

@[simp] theorem releaseReset_params (s : State) : (releaseReset s).params = s.params := rfl
@[simp] theorem releaseReset_ctrl (s : State) : (releaseReset s).ctrl = Ctrl.reset := rfl
@[simp] theorem releaseReset_status (s : State) : (releaseReset s).status = Status.reset := rfl
@[simp] theorem releaseReset_keylen (s : State) : (releaseReset s).keylen = 0 := rfl
@[simp] theorem releaseReset_offset (s : State) : (releaseReset s).offset = 0 := rfl
@[simp] theorem releaseReset_fullcode (s : State) : (releaseReset s).fullcode = 0 := rfl
@[simp] theorem releaseReset_codelen (s : State) : (releaseReset s).codelen = 0 := rfl
@[simp] theorem releaseReset_blen (s : State) : (releaseReset s).blen = 0 := rfl
@[simp] theorem releaseReset_tlen (s : State) : (releaseReset s).tlen = 0 := rfl
@[simp] theorem releaseReset_code (s : State) : (releaseReset s).code = Vector.replicate 16 0x00 := rfl
@[simp] theorem releaseReset_mem (s : State) : (releaseReset s).mem = [] := rfl
@[simp] theorem releaseReset_latched (s : State) : (releaseReset s).latched = 0x00000000 := rfl
@[simp] theorem releaseReset_rstN (s : State) : (releaseReset s).rstN = true := rfl
@[simp] theorem releaseReset_draw (s : State) : (releaseReset s).draw = s.draw + 1 := rfl
@[simp] theorem releaseReset_host (s : State) : (releaseReset s).host = s.host := rfl
@[simp] theorem releaseReset_schedule (s : State) : (releaseReset s).schedule = s.schedule := rfl
@[simp] theorem releaseReset_response (s : State) : (releaseReset s).response = s.response := rfl

/-! ## respond -/

@[simp] theorem respond_params (s : State) (r : Response) : (s.respond r).params = s.params := rfl
@[simp] theorem respond_ctrl (s : State) (r : Response) : (s.respond r).ctrl = s.ctrl := rfl
@[simp] theorem respond_status (s : State) (r : Response) : (s.respond r).status = s.status := rfl
@[simp] theorem respond_keylen (s : State) (r : Response) : (s.respond r).keylen = s.keylen := rfl
@[simp] theorem respond_offset (s : State) (r : Response) : (s.respond r).offset = s.offset := rfl
@[simp] theorem respond_fullcode (s : State) (r : Response) : (s.respond r).fullcode = s.fullcode := rfl
@[simp] theorem respond_codelen (s : State) (r : Response) : (s.respond r).codelen = s.codelen := rfl
@[simp] theorem respond_blen (s : State) (r : Response) : (s.respond r).blen = s.blen := rfl
@[simp] theorem respond_tlen (s : State) (r : Response) : (s.respond r).tlen = s.tlen := rfl
@[simp] theorem respond_code (s : State) (r : Response) : (s.respond r).code = s.code := rfl
@[simp] theorem respond_mem (s : State) (r : Response) : (s.respond r).mem = s.mem := rfl
@[simp] theorem respond_latched (s : State) (r : Response) : (s.respond r).latched = s.latched := rfl
@[simp] theorem respond_rstN (s : State) (r : Response) : (s.respond r).rstN = s.rstN := rfl
@[simp] theorem respond_draw (s : State) (r : Response) : (s.respond r).draw = s.draw := rfl
@[simp] theorem respond_host (s : State) (r : Response) : (s.respond r).host = s.host := rfl
@[simp] theorem respond_schedule (s : State) (r : Response) : (s.respond r).schedule = s.schedule := rfl
@[simp] theorem respond_response (s : State) (r : Response) : (s.respond r).response = some r := rfl

/-! ## setHost -/

@[simp] theorem setHost_params (s : State) (ops : List HostOp) : (s.setHost ops).params = s.params := rfl
@[simp] theorem setHost_ctrl (s : State) (ops : List HostOp) : (s.setHost ops).ctrl = s.ctrl := rfl
@[simp] theorem setHost_status (s : State) (ops : List HostOp) : (s.setHost ops).status = s.status := rfl
@[simp] theorem setHost_keylen (s : State) (ops : List HostOp) : (s.setHost ops).keylen = s.keylen := rfl
@[simp] theorem setHost_offset (s : State) (ops : List HostOp) : (s.setHost ops).offset = s.offset := rfl
@[simp] theorem setHost_fullcode (s : State) (ops : List HostOp) : (s.setHost ops).fullcode = s.fullcode := rfl
@[simp] theorem setHost_codelen (s : State) (ops : List HostOp) : (s.setHost ops).codelen = s.codelen := rfl
@[simp] theorem setHost_blen (s : State) (ops : List HostOp) : (s.setHost ops).blen = s.blen := rfl
@[simp] theorem setHost_tlen (s : State) (ops : List HostOp) : (s.setHost ops).tlen = s.tlen := rfl
@[simp] theorem setHost_code (s : State) (ops : List HostOp) : (s.setHost ops).code = s.code := rfl
@[simp] theorem setHost_mem (s : State) (ops : List HostOp) : (s.setHost ops).mem = s.mem := rfl
@[simp] theorem setHost_latched (s : State) (ops : List HostOp) : (s.setHost ops).latched = s.latched := rfl
@[simp] theorem setHost_rstN (s : State) (ops : List HostOp) : (s.setHost ops).rstN = s.rstN := rfl
@[simp] theorem setHost_draw (s : State) (ops : List HostOp) : (s.setHost ops).draw = s.draw := rfl
@[simp] theorem setHost_host (s : State) (ops : List HostOp) : (s.setHost ops).host = ops := rfl
@[simp] theorem setHost_schedule (s : State) (ops : List HostOp) : (s.setHost ops).schedule = s.schedule := rfl
@[simp] theorem setHost_response (s : State) (ops : List HostOp) : (s.setHost ops).response = s.response := rfl

/-! ## setSchedule -/

@[simp] theorem setSchedule_params (s : State) (ts : List Turn) : (s.setSchedule ts).params = s.params := rfl
@[simp] theorem setSchedule_ctrl (s : State) (ts : List Turn) : (s.setSchedule ts).ctrl = s.ctrl := rfl
@[simp] theorem setSchedule_status (s : State) (ts : List Turn) : (s.setSchedule ts).status = s.status := rfl
@[simp] theorem setSchedule_keylen (s : State) (ts : List Turn) : (s.setSchedule ts).keylen = s.keylen := rfl
@[simp] theorem setSchedule_offset (s : State) (ts : List Turn) : (s.setSchedule ts).offset = s.offset := rfl
@[simp] theorem setSchedule_fullcode (s : State) (ts : List Turn) : (s.setSchedule ts).fullcode = s.fullcode := rfl
@[simp] theorem setSchedule_codelen (s : State) (ts : List Turn) : (s.setSchedule ts).codelen = s.codelen := rfl
@[simp] theorem setSchedule_blen (s : State) (ts : List Turn) : (s.setSchedule ts).blen = s.blen := rfl
@[simp] theorem setSchedule_tlen (s : State) (ts : List Turn) : (s.setSchedule ts).tlen = s.tlen := rfl
@[simp] theorem setSchedule_code (s : State) (ts : List Turn) : (s.setSchedule ts).code = s.code := rfl
@[simp] theorem setSchedule_mem (s : State) (ts : List Turn) : (s.setSchedule ts).mem = s.mem := rfl
@[simp] theorem setSchedule_latched (s : State) (ts : List Turn) : (s.setSchedule ts).latched = s.latched := rfl
@[simp] theorem setSchedule_rstN (s : State) (ts : List Turn) : (s.setSchedule ts).rstN = s.rstN := rfl
@[simp] theorem setSchedule_draw (s : State) (ts : List Turn) : (s.setSchedule ts).draw = s.draw := rfl
@[simp] theorem setSchedule_host (s : State) (ts : List Turn) : (s.setSchedule ts).host = s.host := rfl
@[simp] theorem setSchedule_schedule (s : State) (ts : List Turn) : (s.setSchedule ts).schedule = ts := rfl
@[simp] theorem setSchedule_response (s : State) (ts : List Turn) : (s.setSchedule ts).response = s.response := rfl

/-! ## setPin -/

@[simp] theorem setPin_params (s : State) (b : Bool) : (s.setPin b).params = s.params := rfl
@[simp] theorem setPin_ctrl (s : State) (b : Bool) : (s.setPin b).ctrl = s.ctrl := rfl
@[simp] theorem setPin_status (s : State) (b : Bool) : (s.setPin b).status = s.status := rfl
@[simp] theorem setPin_keylen (s : State) (b : Bool) : (s.setPin b).keylen = s.keylen := rfl
@[simp] theorem setPin_offset (s : State) (b : Bool) : (s.setPin b).offset = s.offset := rfl
@[simp] theorem setPin_fullcode (s : State) (b : Bool) : (s.setPin b).fullcode = s.fullcode := rfl
@[simp] theorem setPin_codelen (s : State) (b : Bool) : (s.setPin b).codelen = s.codelen := rfl
@[simp] theorem setPin_blen (s : State) (b : Bool) : (s.setPin b).blen = s.blen := rfl
@[simp] theorem setPin_tlen (s : State) (b : Bool) : (s.setPin b).tlen = s.tlen := rfl
@[simp] theorem setPin_code (s : State) (b : Bool) : (s.setPin b).code = s.code := rfl
@[simp] theorem setPin_mem (s : State) (b : Bool) : (s.setPin b).mem = s.mem := rfl
@[simp] theorem setPin_latched (s : State) (b : Bool) : (s.setPin b).latched = s.latched := rfl
@[simp] theorem setPin_rstN (s : State) (b : Bool) : (s.setPin b).rstN = b := rfl
@[simp] theorem setPin_draw (s : State) (b : Bool) : (s.setPin b).draw = s.draw := rfl
@[simp] theorem setPin_host (s : State) (b : Bool) : (s.setPin b).host = s.host := rfl
@[simp] theorem setPin_schedule (s : State) (b : Bool) : (s.setPin b).schedule = s.schedule := rfl
@[simp] theorem setPin_response (s : State) (b : Bool) : (s.setPin b).response = s.response := rfl

/-! ## setCtrl -/

@[simp] theorem setCtrl_params (s : State) (c : Ctrl) : (s.setCtrl c).params = s.params := rfl
@[simp] theorem setCtrl_ctrl (s : State) (c : Ctrl) : (s.setCtrl c).ctrl = c := rfl
@[simp] theorem setCtrl_status (s : State) (c : Ctrl) : (s.setCtrl c).status = s.status := rfl
@[simp] theorem setCtrl_keylen (s : State) (c : Ctrl) : (s.setCtrl c).keylen = s.keylen := rfl
@[simp] theorem setCtrl_offset (s : State) (c : Ctrl) : (s.setCtrl c).offset = s.offset := rfl
@[simp] theorem setCtrl_fullcode (s : State) (c : Ctrl) : (s.setCtrl c).fullcode = s.fullcode := rfl
@[simp] theorem setCtrl_codelen (s : State) (c : Ctrl) : (s.setCtrl c).codelen = s.codelen := rfl
@[simp] theorem setCtrl_blen (s : State) (c : Ctrl) : (s.setCtrl c).blen = s.blen := rfl
@[simp] theorem setCtrl_tlen (s : State) (c : Ctrl) : (s.setCtrl c).tlen = s.tlen := rfl
@[simp] theorem setCtrl_code (s : State) (c : Ctrl) : (s.setCtrl c).code = s.code := rfl
@[simp] theorem setCtrl_mem (s : State) (c : Ctrl) : (s.setCtrl c).mem = s.mem := rfl
@[simp] theorem setCtrl_latched (s : State) (c : Ctrl) : (s.setCtrl c).latched = s.latched := rfl
@[simp] theorem setCtrl_rstN (s : State) (c : Ctrl) : (s.setCtrl c).rstN = s.rstN := rfl
@[simp] theorem setCtrl_draw (s : State) (c : Ctrl) : (s.setCtrl c).draw = s.draw := rfl
@[simp] theorem setCtrl_host (s : State) (c : Ctrl) : (s.setCtrl c).host = s.host := rfl
@[simp] theorem setCtrl_schedule (s : State) (c : Ctrl) : (s.setCtrl c).schedule = s.schedule := rfl
@[simp] theorem setCtrl_response (s : State) (c : Ctrl) : (s.setCtrl c).response = s.response := rfl

/-! ## setKeylen -/

@[simp] theorem setKeylen_params (s : State) (v : Word) : (s.setKeylen v).params = s.params := rfl
@[simp] theorem setKeylen_ctrl (s : State) (v : Word) : (s.setKeylen v).ctrl = s.ctrl := rfl
@[simp] theorem setKeylen_status (s : State) (v : Word) : (s.setKeylen v).status = s.status := rfl
@[simp] theorem setKeylen_keylen (s : State) (v : Word) : (s.setKeylen v).keylen = v := rfl
@[simp] theorem setKeylen_offset (s : State) (v : Word) : (s.setKeylen v).offset = s.offset := rfl
@[simp] theorem setKeylen_fullcode (s : State) (v : Word) : (s.setKeylen v).fullcode = s.fullcode := rfl
@[simp] theorem setKeylen_codelen (s : State) (v : Word) : (s.setKeylen v).codelen = s.codelen := rfl
@[simp] theorem setKeylen_blen (s : State) (v : Word) : (s.setKeylen v).blen = s.blen := rfl
@[simp] theorem setKeylen_tlen (s : State) (v : Word) : (s.setKeylen v).tlen = s.tlen := rfl
@[simp] theorem setKeylen_code (s : State) (v : Word) : (s.setKeylen v).code = s.code := rfl
@[simp] theorem setKeylen_mem (s : State) (v : Word) : (s.setKeylen v).mem = s.mem := rfl
@[simp] theorem setKeylen_latched (s : State) (v : Word) : (s.setKeylen v).latched = s.latched := rfl
@[simp] theorem setKeylen_rstN (s : State) (v : Word) : (s.setKeylen v).rstN = s.rstN := rfl
@[simp] theorem setKeylen_draw (s : State) (v : Word) : (s.setKeylen v).draw = s.draw := rfl
@[simp] theorem setKeylen_host (s : State) (v : Word) : (s.setKeylen v).host = s.host := rfl
@[simp] theorem setKeylen_schedule (s : State) (v : Word) : (s.setKeylen v).schedule = s.schedule := rfl
@[simp] theorem setKeylen_response (s : State) (v : Word) : (s.setKeylen v).response = s.response := rfl

/-! ## setFullcode -/

@[simp] theorem setFullcode_params (s : State) (v : BitVec 31) : (s.setFullcode v).params = s.params := rfl
@[simp] theorem setFullcode_ctrl (s : State) (v : BitVec 31) : (s.setFullcode v).ctrl = s.ctrl := rfl
@[simp] theorem setFullcode_status (s : State) (v : BitVec 31) : (s.setFullcode v).status = s.status := rfl
@[simp] theorem setFullcode_keylen (s : State) (v : BitVec 31) : (s.setFullcode v).keylen = s.keylen := rfl
@[simp] theorem setFullcode_offset (s : State) (v : BitVec 31) : (s.setFullcode v).offset = s.offset := rfl
@[simp] theorem setFullcode_fullcode (s : State) (v : BitVec 31) : (s.setFullcode v).fullcode = v := rfl
@[simp] theorem setFullcode_codelen (s : State) (v : BitVec 31) : (s.setFullcode v).codelen = s.codelen := rfl
@[simp] theorem setFullcode_blen (s : State) (v : BitVec 31) : (s.setFullcode v).blen = s.blen := rfl
@[simp] theorem setFullcode_tlen (s : State) (v : BitVec 31) : (s.setFullcode v).tlen = s.tlen := rfl
@[simp] theorem setFullcode_code (s : State) (v : BitVec 31) : (s.setFullcode v).code = s.code := rfl
@[simp] theorem setFullcode_mem (s : State) (v : BitVec 31) : (s.setFullcode v).mem = s.mem := rfl
@[simp] theorem setFullcode_latched (s : State) (v : BitVec 31) : (s.setFullcode v).latched = s.latched := rfl
@[simp] theorem setFullcode_rstN (s : State) (v : BitVec 31) : (s.setFullcode v).rstN = s.rstN := rfl
@[simp] theorem setFullcode_draw (s : State) (v : BitVec 31) : (s.setFullcode v).draw = s.draw := rfl
@[simp] theorem setFullcode_host (s : State) (v : BitVec 31) : (s.setFullcode v).host = s.host := rfl
@[simp] theorem setFullcode_schedule (s : State) (v : BitVec 31) : (s.setFullcode v).schedule = s.schedule := rfl
@[simp] theorem setFullcode_response (s : State) (v : BitVec 31) : (s.setFullcode v).response = s.response := rfl

/-! ## setBlen -/

@[simp] theorem setBlen_params (s : State) (v : BitVec 16) : (s.setBlen v).params = s.params := rfl
@[simp] theorem setBlen_ctrl (s : State) (v : BitVec 16) : (s.setBlen v).ctrl = s.ctrl := rfl
@[simp] theorem setBlen_status (s : State) (v : BitVec 16) : (s.setBlen v).status = s.status := rfl
@[simp] theorem setBlen_keylen (s : State) (v : BitVec 16) : (s.setBlen v).keylen = s.keylen := rfl
@[simp] theorem setBlen_offset (s : State) (v : BitVec 16) : (s.setBlen v).offset = s.offset := rfl
@[simp] theorem setBlen_fullcode (s : State) (v : BitVec 16) : (s.setBlen v).fullcode = s.fullcode := rfl
@[simp] theorem setBlen_codelen (s : State) (v : BitVec 16) : (s.setBlen v).codelen = s.codelen := rfl
@[simp] theorem setBlen_blen (s : State) (v : BitVec 16) : (s.setBlen v).blen = v := rfl
@[simp] theorem setBlen_tlen (s : State) (v : BitVec 16) : (s.setBlen v).tlen = s.tlen := rfl
@[simp] theorem setBlen_code (s : State) (v : BitVec 16) : (s.setBlen v).code = s.code := rfl
@[simp] theorem setBlen_mem (s : State) (v : BitVec 16) : (s.setBlen v).mem = s.mem := rfl
@[simp] theorem setBlen_latched (s : State) (v : BitVec 16) : (s.setBlen v).latched = s.latched := rfl
@[simp] theorem setBlen_rstN (s : State) (v : BitVec 16) : (s.setBlen v).rstN = s.rstN := rfl
@[simp] theorem setBlen_draw (s : State) (v : BitVec 16) : (s.setBlen v).draw = s.draw := rfl
@[simp] theorem setBlen_host (s : State) (v : BitVec 16) : (s.setBlen v).host = s.host := rfl
@[simp] theorem setBlen_schedule (s : State) (v : BitVec 16) : (s.setBlen v).schedule = s.schedule := rfl
@[simp] theorem setBlen_response (s : State) (v : BitVec 16) : (s.setBlen v).response = s.response := rfl

/-! ## setTlen -/

@[simp] theorem setTlen_params (s : State) (v : BitVec 16) : (s.setTlen v).params = s.params := rfl
@[simp] theorem setTlen_ctrl (s : State) (v : BitVec 16) : (s.setTlen v).ctrl = s.ctrl := rfl
@[simp] theorem setTlen_status (s : State) (v : BitVec 16) : (s.setTlen v).status = s.status := rfl
@[simp] theorem setTlen_keylen (s : State) (v : BitVec 16) : (s.setTlen v).keylen = s.keylen := rfl
@[simp] theorem setTlen_offset (s : State) (v : BitVec 16) : (s.setTlen v).offset = s.offset := rfl
@[simp] theorem setTlen_fullcode (s : State) (v : BitVec 16) : (s.setTlen v).fullcode = s.fullcode := rfl
@[simp] theorem setTlen_codelen (s : State) (v : BitVec 16) : (s.setTlen v).codelen = s.codelen := rfl
@[simp] theorem setTlen_blen (s : State) (v : BitVec 16) : (s.setTlen v).blen = s.blen := rfl
@[simp] theorem setTlen_tlen (s : State) (v : BitVec 16) : (s.setTlen v).tlen = v := rfl
@[simp] theorem setTlen_code (s : State) (v : BitVec 16) : (s.setTlen v).code = s.code := rfl
@[simp] theorem setTlen_mem (s : State) (v : BitVec 16) : (s.setTlen v).mem = s.mem := rfl
@[simp] theorem setTlen_latched (s : State) (v : BitVec 16) : (s.setTlen v).latched = s.latched := rfl
@[simp] theorem setTlen_rstN (s : State) (v : BitVec 16) : (s.setTlen v).rstN = s.rstN := rfl
@[simp] theorem setTlen_draw (s : State) (v : BitVec 16) : (s.setTlen v).draw = s.draw := rfl
@[simp] theorem setTlen_host (s : State) (v : BitVec 16) : (s.setTlen v).host = s.host := rfl
@[simp] theorem setTlen_schedule (s : State) (v : BitVec 16) : (s.setTlen v).schedule = s.schedule := rfl
@[simp] theorem setTlen_response (s : State) (v : BitVec 16) : (s.setTlen v).response = s.response := rfl

end Sys2Proof.Machine
end

