-- ==== Sys2Proof/Laws/Memory.lean ====
section
/-! SUPPORT. The laws of RAM: read after write, writes elsewhere, and the canonical form, which every operation keeps. -/

namespace Sys2Proof.Machine

/-- Reading after a write: the byte written there, every other offset as before. -/
theorem get?_set (m : Memory) (k j : Nat) (v : Byte) : (m.set k v).get? j = if j = k then some v else m.get? j := by
  induction m with
  | nil => grind [Memory.set, Memory.get?]
  | cons c m ih =>
    obtain ⟨a, b⟩ := c
    simp only [Memory.set]
    split_ifs <;> grind [Memory.get?]

/-- Reading after a write of consecutive bytes. -/
theorem get?_setList (bs : List Byte) : ∀ (m : Memory) (k j : Nat),
    (m.setList k bs).get? j = if k ≤ j ∧ j < k + bs.length then bs[j - k]? else m.get? j := by
  induction bs with
  | nil => intro m k j; simp only [Memory.setList, List.length_nil]; split_ifs <;> first | omega | rfl
  | cons b bs ih =>
    intro m k j
    rw [Memory.setList, ih, get?_set]
    by_cases hj : j = k
    · subst hj; simp
    · rcases Nat.lt_or_gt_of_ne hj with h | h
      · simp [hj, Nat.not_le.2 h, show ¬ k + 1 ≤ j by omega]
      · have e : j - k = (j - (k + 1)) + 1 := by omega
        simp only [hj, e, List.length_cons, List.getElem?_cons_succ, if_false]
        congr 1
        exact propext (by omega)

theorem risesFrom_set (m : Memory) (k : Nat) (v : Byte) : ∀ o : Option Nat, (∀ x ∈ o, x < k) →
    Memory.risesFrom o m = true → Memory.risesFrom o (m.set k v) = true := by
  induction m with
  | nil => intro o ho _; cases o <;> simp_all [Memory.set, Memory.risesFrom]
  | cons c m ih =>
    intro o ho h
    obtain ⟨a, b⟩ := c
    have hm : Memory.risesFrom (some a) m = true := by cases o <;> simp_all [Memory.risesFrom]
    simp only [Memory.set]
    split_ifs with h₁ h₂
    · cases o <;> simp_all [Memory.risesFrom]
    · subst h₂; cases o <;> simp_all [Memory.risesFrom]
    · have := ih (some a) (by simp; omega) hm
      cases o <;> simp_all [Memory.risesFrom]

/-- A write keeps the canonical form. -/
theorem wf_set (m : Memory) (k : Nat) (v : Byte) (h : m.wf = true) : (m.set k v).wf = true :=
  risesFrom_set m k v none (by simp) h

/-- A write of consecutive bytes keeps the canonical form. -/
theorem wf_setList (bs : List Byte) : ∀ (m : Memory) (k : Nat), m.wf = true → (m.setList k bs).wf = true := by
  induction bs with
  | nil => intro m k h; exact h
  | cons b bs ih => intro m k h; exact ih _ _ (wf_set m k b h)

/-- The empty memory is canonical. -/
theorem wf_nil : Memory.wf [] = true := rfl

/-- A write lists no offset but its own. -/
theorem mem_set (m : Memory) (k : Nat) (v : Byte) (c : Host.Cell) (h : c ∈ m.set k v) : c = (k, v) ∨ c ∈ m := by
  induction m with
  | nil => simpa [Memory.set] using h
  | cons d m ih =>
    obtain ⟨a, b⟩ := d
    simp only [Memory.set] at h
    split_ifs at h
    · simpa using h
    · rcases List.mem_cons.1 h with h | h
      · exact .inl h
      · exact .inr (List.mem_cons_of_mem _ h)
    · rcases List.mem_cons.1 h with h | h
      · exact .inr (h ▸ List.mem_cons_self)
      · exact (ih h).imp_right (List.mem_cons_of_mem _)

/-- A write of consecutive bytes lists no offset but its own. -/
theorem mem_setList (bs : List Byte) : ∀ (m : Memory) (k : Nat) (c : Host.Cell), c ∈ m.setList k bs →
    (k ≤ c.1 ∧ c.1 < k + bs.length) ∨ c ∈ m := by
  induction bs with
  | nil => intro m k c h; exact .inr h
  | cons b bs ih =>
    intro m k c h
    rcases ih _ _ c h with h | h
    · left; simp only [List.length_cons]; omega
    · rcases mem_set m k b c h with h | h
      · left; subst h; simp
      · exact .inr h

/-- A byte after a write of consecutive bytes. -/
theorem ram_writeRam (s : State) (a : Nat) (bs : List Byte) (k : Nat) :
    (s.writeRam a bs).ram k = if a ≤ k ∧ k < a + bs.length then bs.getD (k - a) 0x00 else s.ram k := by
  simp only [State.ram, writeRam_mem, writeRam_draw, get?_setList]
  split_ifs with h
  · have : k - a < bs.length := by omega
    simp [List.getElem?_eq_getElem this]
  · rfl

/-- A RAM byte depends on the written bytes and the draw alone. -/
theorem ram_congr {s t : State} (hm : t.mem = s.mem) (hd : t.draw = s.draw) (a : Nat) : t.ram a = s.ram a := by
  simp [State.ram, hm, hd]

@[simp] theorem length_ramList (s : State) (a n : Nat) : (s.ramList a n).length = n := by simp [State.ramList]

theorem getElem_ramList (s : State) (a n i : Nat) (h : i < (s.ramList a n).length) : (s.ramList a n)[i] = s.ram (a + i) := by
  simp [State.ramList]

end Sys2Proof.Machine
end

