-- ==== Sys2Proof/Laws/Bus.lean ====
section
/-! SUPPORT. The address map and the lanes: what each access addresses, which accesses are legal, and how bytes pack. -/

namespace Sys2Proof.Machine

/-- The constraints on the sizes, as arithmetic (spec/00_scope.md R8). -/
theorem wellFormed_iff (p : Params) :
    p.wellFormed = true ↔ p.bbufSize % 5 = 0 ∧ 5 ≤ p.bbufSize ∧ p.bbufSize ≤ 765 ∧ p.tbufSize = 8 * p.bbufSize / 5 := by
  simp [Params.wellFormed, and_assoc]

theorem size_pos (n : Size) : 0 < n.bytes := by cases n <;> decide

theorem size_le (n : Size) : n.bytes ≤ 4 := by cases n <;> decide

theorem size_cases (n : Size) : n.bytes = 1 ∨ n.bytes = 2 ∨ n.bytes = 4 := by cases n <;> simp [Size.bytes]

/-- The register of an offset below 0x030 that is a multiple of 4 exists. -/
theorem regAt_isSome (a : Nat) (h : a < 0x030) (h4 : a % 4 = 0) : (regAt a).isSome = true := by
  interval_cases a <;> first | rfl | omega

/-- CMD stands at 0x00C only. -/
theorem eq_of_regAt_cmd (a : Nat) (h : regAt a = some .cmd) : a = 0x00C := by
  unfold regAt at h
  repeat' split at h
  all_goals first | assumption | exact absurd h (by decide)

/-- The window of an element, with legal sizes. -/
theorem windowAt_base_add (p : Params) (w : Window) (i : Nat) (hp : p.wellFormed = true) (hi : i < w.size p) :
    windowAt p (w.base + i) = some w := by
  rw [wellFormed_iff] at hp
  have : windowAt p (w.base + i) = some w ↔ True := by
    cases w <;> simp only [Window.size] at hi <;>
      simp [windowAt, Window.holds, Window.base, Window.size, List.find?_cons] <;> grind
  exact this.2 trivial

/-- A legal window access addresses its elements. -/
theorem target_window (p : Params) (w : Window) (i n : Nat) (hp : p.wellFormed = true) (hn : 0 < n)
    (ha : (w.base + i) % n = 0) (hi : i + n ≤ w.size p) : target p (w.base + i) n = some (.window w i) := by
  have hb : ¬ (w.base + i < 0x030) := by cases w <;> simp [Window.base] <;> omega
  simp only [target, ha, ne_eq, not_true_eq_false, if_false, hb, windowAt_base_add p w i hp (by omega)]
  rw [if_pos (by omega)]
  simp

/-- The windows hold what `windowAt` says. -/
theorem holds_of_windowAt (p : Params) (a : Nat) (w : Window) (h : windowAt p a = some w) :
    w.base ≤ a ∧ a < w.base + w.size p := by
  have := List.find?_some h
  simpa [Window.holds] using this

/-- A transaction addresses something exactly if it is legal (spec/20_memory.md R38, R39). -/
theorem target_isSome_iff (p : Params) (a n : Nat) (hp : p.wellFormed = true) (hn : 0 < n) :
    (target p a n).isSome = true ↔ LegalAccess p a n := by
  have hmem : ∀ w : Window, (w.base, w.size p) ∈ [(0x030, 16), (0x040, 64), (0x100, p.bbufSize), (0x400, p.tbufSize)] := by
    intro w; cases w <;> simp [Window.base, Window.size]
  constructor
  · intro h
    unfold target at h
    split_ifs at h with h₁ h₂ h₃
    · simp at h
    · exact ⟨by omega, .inl ⟨h₂, h₃⟩⟩
    · simp at h
    · cases hw : windowAt p a with
      | none => simp [hw] at h
      | some w =>
        simp only [hw] at h
        split_ifs at h with h₄
        · exact ⟨by omega, .inr ⟨_, hmem w, (holds_of_windowAt p a w hw).1, h₄⟩⟩
        · simp at h
  · rintro ⟨h₁, ⟨h₂, rfl⟩ | ⟨w, hw, h₂, h₃⟩⟩
    · simp [target, h₁, h₂, regAt_isSome a h₂ h₁]
    · have : ∃ v : Window, w = (v.base, v.size p) := by
        simp only [List.mem_cons, List.not_mem_nil, or_false] at hw
        rcases hw with rfl | rfl | rfl | rfl
        · exact ⟨.code, rfl⟩
        · exact ⟨.digest, rfl⟩
        · exact ⟨.bbuf, rfl⟩
        · exact ⟨.tbuf, rfl⟩
      obtain ⟨v, rfl⟩ := this
      have := target_window p v (a - v.base) n hp hn (by simp only at h₂; rwa [Nat.add_sub_cancel' h₂]) (by simp only at h₂ h₃; omega)
      rw [Nat.add_sub_cancel' (by simpa using h₂)] at this
      simp [this]

/-! ## Register layouts -/

/-- Concatenation as arithmetic. -/
theorem toNat_append_eq {m k : Nat} (a : BitVec m) (b : BitVec k) : (a ++ b).toNat = a.toNat * 2 ^ k + b.toNat := by
  rw [BitVec.toNat_append, Nat.shiftLeft_eq, Nat.mul_comm, ← Nat.two_pow_add_eq_or_of_lt b.isLt]

/-- STATUS as a number (spec/10_state.md R22). -/
theorem toNat_statusWord (st : Status) : (statusWord st).toNat =
    st.busy.toNat + 2 * st.done.toNat + 4 * st.err.toNat + 8 * st.wovr.toNat + 256 * st.errcode.toNat := by
  have h₁ : (0 : BitVec 16).toNat = 0 := rfl
  have h₂ : (0 : BitVec 4).toNat = 0 := rfl
  simp only [statusWord, toNat_append_eq, BitVec.toNat_ofBool, h₁, h₂]
  omega

/-- CTRL as a number (spec/10_state.md R20). -/
theorem toNat_ctrlWord (c : Ctrl) : (ctrlWord c).toNat =
    c.alg.toNat + 8 * c.strict.toNat + 16 * c.digits.toNat + 256 * c.irqEn.toNat := by
  have h₁ : (0 : BitVec 23).toNat = 0 := rfl
  simp only [ctrlWord, toNat_append_eq, BitVec.toNat_ofBool, h₁]
  omega

/-- BUSY is bit 0 of STATUS. -/
theorem statusWord_busy (st : Status) : (statusWord st).getLsbD 0 = st.busy := by
  rw [← BitVec.testBit_toNat, toNat_statusWord, Nat.testBit_zero]
  cases st.busy <;> simp <;> omega

/-! ## Lanes -/

/-- Bit by bit, packed lanes are the bytes one behind the other. -/
theorem getLsbD_packLanes (bs : List Byte) : ∀ x : Nat, x < 32 →
    (packLanes bs).getLsbD x = ((bs.getD (x / 8) 0x00).getLsbD (x % 8)) := by
  induction bs with
  | nil => intro x _; simp [packLanes]
  | cons b bs ih =>
    intro x hx
    rw [packLanes, BitVec.getLsbD_or, BitVec.getLsbD_shiftLeft, BitVec.getLsbD_setWidth]
    by_cases h : x < 8
    · have e : x / 8 = 0 := by omega
      simp [h, hx, e, Nat.mod_eq_of_lt h]
    · have e : x / 8 = (x - 8) / 8 + 1 := by omega
      have e₂ : x % 8 = (x - 8) % 8 := by omega
      rw [ih (x - 8) (by omega)]
      simp [h, hx, e, e₂, BitVec.getLsbD_of_ge b x (by omega)]

theorem length_unpackLanes (n : Nat) (v : Word) : (unpackLanes n v).length = n := by simp [unpackLanes]

theorem getD_unpackLanes (n : Nat) (v : Word) (k : Nat) (h : k < n) : (unpackLanes n v).getD k 0x00 = v.extractLsb' (8 * k) 8 := by
  simp [unpackLanes, List.getD, h]

/-- The lanes of a read give the bytes back. -/
theorem extract_packLanes (bs : List Byte) (k : Nat) (h : k < 4) : (packLanes bs).extractLsb' (8 * k) 8 = bs.getD k 0x00 := by
  apply BitVec.eq_of_getLsbD_eq
  intro j hj
  rw [BitVec.getLsbD_extractLsb', getLsbD_packLanes bs _ (by omega)]
  have e₁ : (8 * k + j) / 8 = k := by omega
  have e₂ : (8 * k + j) % 8 = j := by omega
  simp [hj, e₁, e₂]

/-- A read of n bytes returns less than 2^(8n). -/
theorem packLanes_lt (bs : List Byte) : (packLanes bs).toNat < 2 ^ (8 * bs.length) := by
  apply Nat.lt_pow_two_of_testBit
  intro x hx
  rw [BitVec.testBit_toNat]
  by_cases hx32 : x < 32
  · rw [getLsbD_packLanes bs x hx32, List.getD_eq_default]
    · simp
    · omega
  · exact BitVec.getLsbD_of_ge _ _ (by omega)

end Sys2Proof.Machine
end

