-- ==== Sys2Proof/Laws/Base32.lean ====
section
/-! SUPPORT. The Base32 engine: the alphabet, the shape of encoded text, the bit stream of decoded text, and the checks of
the decoder in the spec's own terms (spec/40_base32.md). -/

namespace Sys2Proof.Machine

/-! ## The alphabet -/

theorem base32Char_eq (v : BitVec 5) : base32Char v = base32Alphabet.getD v.toNat 0x00 := by revert v; decide

theorem isBase32Char_iff (c : Byte) : isBase32Char c = true ↔ c ∈ base32Alphabet := by
  have : ∀ c : Byte, isBase32Char c = base32Alphabet.contains c := by decide
  rw [this c, List.contains_iff_mem]

theorem base32Value_eq (c : Byte) (h : c ∈ base32Alphabet) : base32Value c = base32Alphabet.idxOf c := by
  have : ∀ c ∈ base32Alphabet, base32Value c = base32Alphabet.idxOf c := by decide
  exact this c h

theorem idxOf_base32Alphabet_lt (c : Byte) (h : c ∈ base32Alphabet) : base32Alphabet.idxOf c < 32 :=
  List.idxOf_lt_length_iff.2 h

theorem base32Value_base32Char (v : BitVec 5) : base32Value (base32Char v) = v.toNat := by revert v; decide

theorem base32Char_mem (v : BitVec 5) : base32Char v ∈ base32Alphabet := by revert v; decide

theorem upcase_of_mem (c : Byte) (h : c ∈ base32Alphabet) : upcase c = c := by
  have : ∀ c ∈ base32Alphabet, upcase c = c := by decide
  exact this c h

theorem padChar_not_mem : padChar ∉ base32Alphabet := by decide

/-! ## Encoding -/

@[simp] theorem length_encodeGroup (bs : List Byte) : (encodeGroup bs).length = 8 := by simp [encodeGroup]

@[simp] theorem length_encodeGroups (k : Nat) : ∀ bs : List Byte, (encodeGroups k bs).length = 8 * k := by
  induction k with
  | zero => intro bs; rfl
  | succ k ih => intro bs; simp [encodeGroups, ih]; omega

/-- The length of the text (spec/40_base32.md R63). -/
@[simp] theorem length_base32Encode (bs : List Byte) : (base32Encode bs).length = 8 * ((bs.length + 4) / 5) := by
  simp [base32Encode]

theorem getD_encodeGroup (bs : List Byte) (j : Nat) (h : j < 8) : (encodeGroup bs).getD j 0x00 =
    if j < dataChars bs.length then base32Char ((groupValue bs).extractLsb' (35 - 5 * j) 5) else padChar := by
  simp [encodeGroup, List.getD, h]

/-- Character `j` of group `g` comes from that group's five bytes alone. -/
theorem getD_encodeGroups (k : Nat) : ∀ (bs : List Byte) (g j : Nat), g < k → j < 8 →
    (encodeGroups k bs).getD (8 * g + j) 0x00 = (encodeGroup ((bs.drop (5 * g)).take 5)).getD j 0x00 := by
  induction k with
  | zero => intro bs g j h; omega
  | succ k ih =>
    intro bs g j hg hj
    rw [encodeGroups]
    cases g with
    | zero => rw [List.getD_append _ _ _ _ (by simpa using hj)]; simp
    | succ g =>
      rw [List.getD_append_right _ _ _ _ (by simp; omega), length_encodeGroup,
        show 8 * (g + 1) + j - 8 = 8 * g + j by omega, ih _ g j (by omega) hj, List.drop_drop,
        show 5 + 5 * g = 5 * (g + 1) by omega]

/-- A group as a number. -/
theorem toNat_groupValue (bs : List Byte) : (groupValue bs).toNat =
    (bs.getD 0 0x00).toNat * 2 ^ 32 + (bs.getD 1 0x00).toNat * 2 ^ 24 + (bs.getD 2 0x00).toNat * 2 ^ 16
      + (bs.getD 3 0x00).toNat * 2 ^ 8 + (bs.getD 4 0x00).toNat := by
  have e : ∀ (w : Nat) (a : BitVec w) (b : Byte), (a ++ b).toNat = a.toNat * 2 ^ 8 + b.toNat := by
    intro w a b
    rw [BitVec.toNat_append, Nat.shiftLeft_eq, Nat.mul_comm, ← Nat.two_pow_add_eq_or_of_lt b.isLt]
  simp only [groupValue, e]
  omega

/-! ## The bit stream of decoded text -/

theorem bitString_append (cs : List Byte) (c : Byte) : bitString (cs ++ [c]) = bitString cs * 32 + base32Value c := by
  simp [bitString]

/-- Bit `x` of the stream, counted from the front, is a bit of the number the characters form. -/
theorem testBit_bitString (cs : List Byte) (hv : ∀ c ∈ cs, base32Value c < 32) : ∀ x < 5 * cs.length,
    (bitString cs).testBit (5 * cs.length - 1 - x) = (base32Value (cs.getD (x / 5) 0x00)).testBit (4 - x % 5) := by
  induction cs using List.reverseRecOn with
  | nil => intro x h; simp at h
  | append_singleton cs c ih =>
    intro x hx
    have hc : base32Value c < 2 ^ 5 := hv c (by simp)
    rw [bitString_append, show bitString cs * 32 + base32Value c = 2 ^ 5 * bitString cs + base32Value c by omega,
      Nat.testBit_two_pow_mul_add _ hc]
    simp only [List.length_append, List.length_singleton] at hx ⊢
    by_cases h : x < 5 * cs.length
    · have := ih (fun c hc => hv c (by simp [hc])) x h
      rw [if_neg (by omega), show 5 * (cs.length + 1) - 1 - x - 5 = 5 * cs.length - 1 - x by omega, this,
        List.getD_append _ _ _ _ (by omega)]
    · rw [if_pos (by omega), List.getD_append_right _ _ _ _ (by omega)]
      have e₁ : x / 5 - cs.length = 0 := by omega
      have e₂ : 5 * (cs.length + 1) - 1 - x = 4 - x % 5 := by omega
      simp [e₁, e₂]

@[simp] theorem length_decodeData (cs : List Byte) : (decodeData cs).length = 5 * cs.length / 8 := by simp [decodeData]

/-- Bit 7 - x of decoded byte `j` is bit 8j + x of the stream (spec/40_base32.md R66). -/
theorem getLsbD_decodeData (cs : List Byte) (hv : ∀ c ∈ cs, base32Value c < 32) (j x : Nat) (hj : j < 5 * cs.length / 8)
    (hx : x < 8) : ((decodeData cs).getD j 0x00).getLsbD (7 - x) =
      (base32Value (cs.getD ((8 * j + x) / 5) 0x00)).testBit (4 - (8 * j + x) % 5) := by
  rw [← testBit_bitString cs hv (8 * j + x) (by omega)]
  have : (decodeData cs).getD j 0x00 = BitVec.ofNat 8 (bitString cs / 2 ^ (5 * cs.length - 8 - 8 * j)) := by
    simp [decodeData, List.getD, hj]
  rw [this, BitVec.getLsbD_ofNat, Nat.testBit_div_two_pow]
  simp only [show (7 - x < 8) = True by simp; omega, decide_true, Bool.true_and]
  congr 1
  omega

/-! ## The checks of the decoder -/

/-- The text of `n` characters is a run of `q` characters other than `=` and then only `=`. -/
def SuffixRun (u : Nat → Byte) (n q : Nat) : Prop :=
  q ≤ n ∧ (∀ i < q, u i ≠ 0x3D) ∧ ∀ i, q ≤ i → i < n → u i = 0x3D

theorem takeWhile_dropWhile_of_suffixRun (u : Nat → Byte) (n q : Nat) (h : SuffixRun u n q) :
    ((List.range n).map u).takeWhile (· != padChar) = (List.range q).map u
      ∧ ((List.range n).map u).dropWhile (· != padChar) = (List.range (n - q)).map fun i => u (q + i) := by
  obtain ⟨hq, hd, hp⟩ := h
  have e : (List.range n).map u = (List.range q).map u ++ (List.range (n - q)).map fun i => u (q + i) := by
    conv_lhs => rw [show n = q + (n - q) by omega, List.range_add, List.map_append, List.map_map]
    rfl
  have h₁ : ∀ c ∈ (List.range q).map u, (c != padChar) = true := by
    intro c hc
    obtain ⟨i, hi, rfl⟩ := List.mem_map.1 hc
    simpa [padChar] using hd i (List.mem_range.1 hi)
  have h₂ : ((List.range (n - q)).map fun i => u (q + i)).takeWhile (· != padChar) = [] := by
    rcases Nat.eq_zero_or_pos (n - q) with h0 | h0
    · simp [h0]
    · rw [← Nat.succ_pred_eq_of_pos h0, List.range_succ_eq_map]
      have := hp q (Nat.le_refl q) (by omega)
      simp [this, padChar]
  rw [e, List.takeWhile_append_of_pos h₁, List.dropWhile_append_of_pos h₁, h₂]
  refine ⟨by simp, ?_⟩
  conv_rhs => rw [← List.takeWhile_append_dropWhile (p := (· != padChar)) (l := (List.range (n - q)).map fun i => u (q + i)), h₂]
  simp

/-- The padding-position check of the decoder is the existence of a suffix run (spec/40_base32.md R66). -/
theorem run_all_pad_iff (u : Nat → Byte) (n : Nat) :
    (((List.range n).map u).dropWhile (· != padChar)).all (· == padChar) = true ↔ ∃ q, SuffixRun u n q := by
  constructor
  · intro h
    set l := (List.range n).map u with hl
    have hlen : l.length = n := by simp [hl]
    have hget : ∀ i (hi : i < l.length), l[i] = u i := by intro i hi; simp [hl]
    have hsplit := List.takeWhile_append_dropWhile (p := (· != padChar)) (l := l)
    have hlen' : (l.takeWhile (· != padChar)).length + (l.dropWhile (· != padChar)).length = n := by
      rw [← List.length_append, hsplit, hlen]
    refine ⟨(l.takeWhile (· != padChar)).length, by omega, ?_, ?_⟩
    · intro i hi
      have hmem : (l.takeWhile (· != padChar))[i] ∈ l.takeWhile (· != padChar) := List.getElem_mem hi
      have := List.mem_takeWhile_imp hmem
      have e : (l.takeWhile (· != padChar))[i] = l[i]'(by omega) := (List.takeWhile_prefix _).getElem hi
      rw [e, hget] at this
      simpa [padChar] using this
    · intro i hi hin
      have e : l[i]'(by omega) = (l.dropWhile (· != padChar))[i - (l.takeWhile (· != padChar)).length]'(by omega) := by
        have h' : i < (l.takeWhile (· != padChar) ++ l.dropWhile (· != padChar)).length := by rw [hsplit]; omega
        have : (l.takeWhile (· != padChar) ++ l.dropWhile (· != padChar))[i]'h' = l[i]'(by omega) := by
          congr 1
        rw [← this, List.getElem_append_right hi]
      rw [hget] at e
      rw [e]
      have := List.all_eq_true.1 h _ (List.getElem_mem (l := l.dropWhile (· != padChar))
        (n := i - (l.takeWhile (· != padChar)).length) (by omega))
      simpa [padChar] using this
  · rintro ⟨q, hq⟩
    rw [(takeWhile_dropWhile_of_suffixRun u n q hq).2, List.all_eq_true]
    intro c hc
    obtain ⟨i, hi, rfl⟩ := List.mem_map.1 hc
    have := hq.2.2 (q + i) (by omega) (by have := List.mem_range.1 hi; omega)
    simp [this, padChar]

/-- The character check of the decoder (spec/40_base32.md R66). -/
theorem all_chars_iff (u : Nat → Byte) (n : Nat) :
    ((List.range n).map u).all (fun c => isBase32Char c || c == padChar) = true ↔
      ∀ i < n, u i ∈ base32Alphabet ∨ u i = 0x3D := by
  simp [List.all_eq_true, isBase32Char_iff, padChar]

/-- The text B32DEC checks, by element. -/
theorem map_upcase_tbufText (s : State) : s.tbufText.map upcase = (List.range s.tlen.toNat).map s.textChar := by
  simp [State.tbufText, State.ramList, State.textChar, State.element, Function.comp_def]

@[simp] theorem length_tbufText (s : State) : s.tbufText.length = s.tlen.toNat := by simp [State.tbufText]

@[simp] theorem length_bbufBytes (s : State) : s.bbufBytes.length = s.blen.toNat := by simp [State.bbufBytes]

/-- Legal text is decoded by its data characters (spec/40_base32.md R65, R66). -/
theorem base32Decode_ok (s : State) (q : Nat) (h : LegalBase32 s.textChar s.tlen.toNat q) :
    base32Decode s.tbufText = .ok (decodeData ((List.range q).map s.textChar)) := by
  obtain ⟨h₁, h₂, h₃, h₄⟩ := h
  have hc := (all_chars_iff s.textChar s.tlen.toNat).2 h₂
  have hr := (run_all_pad_iff s.textChar s.tlen.toNat).2 ⟨q, h₃⟩
  obtain ⟨ht, hd⟩ := takeWhile_dropWhile_of_suffixRun s.textChar s.tlen.toNat q h₃
  have hlen : (((List.range s.tlen.toNat).map s.textChar).dropWhile (· != padChar)).length = s.tlen.toNat - q := by
    rw [hd]; simp
  simp only [base32Decode, map_upcase_tbufText, length_tbufText, hc, hr, hlen, ht]
  simp [h₁, h₄]

end Sys2Proof.Machine
end

