-- ==== Sys2Proof/Laws/Exec.lean ====
section
/-! SUPPORT. What a command can do, said once per command: the completion, the full-code function, and one lemma per
meaning's outcome. -/

namespace Sys2Proof.Machine

/-- A completion is a success with the commits made, or one recorded error (spec/60_exceptions.md R87 to R89). -/
theorem complete_ok (t s : State) : complete (.ok t) s = .next (succeed t) := rfl

theorem complete_error (e : ErrorKind) (s : State) : complete (.error e) s = .next (raise e s) := rfl

theorem complete_cases (r : Except ErrorKind State) (s : State) :
    (∃ t, r = .ok t ∧ complete r s = .next (succeed t)) ∨ ∃ e, r = .error e ∧ complete r s = .next (raise e s) := by
  cases r with
  | ok t => exact .inl ⟨t, rfl, rfl⟩
  | error e => exact .inr ⟨e, rfl, rfl⟩

/-- The outcome each command but SRESET completes with. -/
def outcome (i : Instr) (s : State) : Except ErrorKind State :=
  match i with
  | .nop => .ok s
  | .b32enc => performB32enc s
  | .b32dec => performB32dec s
  | .trunc => performTrunc s
  | .decimal => performDecimal s
  | .steam => performSteam s
  | .hotp => performHotp s
  | .steamcode => performSteamcode s
  | .sreset => .ok s

/-- Every command but SRESET is one completion (spec/60_exceptions.md R87). -/
theorem exec_eq_complete (i : Instr) (s : State) (h : i ≠ .sreset) : exec i s = complete (outcome i s) s := by
  cases i <;> first | rfl | exact absurd rfl h

theorem exec_sreset (s : State) : exec .sreset s = .next (softReset s) := rfl

/-- No command stops the machine. -/
theorem exec_next (i : Instr) (s : State) : ∃ t, exec i s = .next t := by
  by_cases h : i = .sreset
  · exact ⟨_, h ▸ exec_sreset s⟩
  · rw [exec_eq_complete i s h]
    rcases complete_cases (outcome i s) s with ⟨t, _, h⟩ | ⟨e, _, h⟩ <;> exact ⟨_, h⟩

/-- What a successful command commits, command by command (spec/30_encoding.md R55). -/
inductive Commits (s : State) : Instr → State → Prop
  | nop : Commits s .nop s
  | b32enc (h : s.blen.toNat ≤ s.params.bbufSize) : Commits s .b32enc (commitText (base32Encode s.bbufBytes) s)
  | b32dec (out : List Byte) (h : s.tlen.toNat ≤ s.params.tbufSize) (ho : base32Decode s.tbufText = .ok out) :
      Commits s .b32dec (commitBytes out s)
  | trunc (off : BitVec 4) (fc : BitVec 31)
      (h : fullCode s.ctrl.alg s.ctrl.strict s.keylen s.digestByte = .ok (off, fc)) :
      Commits s .trunc (commitFullCode off fc s)
  | decimal (c : Vector Byte 16) (h : decimalChars s.fullcode s.ctrl.digits = .ok c) :
      Commits s .decimal (commitCode c (s.ctrl.digits.setWidth 5) s)
  | steam : Commits s .steam (commitCode (steamChars s.fullcode) 5 s)
  | hotp (off : BitVec 4) (fc : BitVec 31) (c : Vector Byte 16)
      (h : fullCode s.ctrl.alg s.ctrl.strict s.keylen s.digestByte = .ok (off, fc))
      (hc : decimalChars fc s.ctrl.digits = .ok c) :
      Commits s .hotp (commitCode c (s.ctrl.digits.setWidth 5) (commitFullCode off fc s))
  | steamcode (off : BitVec 4) (fc : BitVec 31) (h : fullCode 0 s.ctrl.strict s.keylen s.digestByte = .ok (off, fc)) :
      Commits s .steamcode (commitCode (steamChars fc) 5 (commitFullCode off fc s))

theorem map_ok {α β : Type} {r : Except ErrorKind α} {f : α → β} {b : β} (h : r.map f = .ok b) : ∃ a, r = .ok a ∧ f a = b := by
  cases r with
  | error e => cases h
  | ok a => cases h; exact ⟨a, rfl, rfl⟩

theorem map_error {α β : Type} {r : Except ErrorKind α} {f : α → β} {e : ErrorKind} (h : r.map f = .error e) :
    r = .error e := by
  cases r with
  | error e' => cases h; rfl
  | ok a => cases h

/-- The inversion of a success. -/
theorem outcome_ok {i : Instr} {s t : State} (hi : i ≠ .sreset) (h : outcome i s = .ok t) : Commits s i t := by
  cases i with
  | nop => cases h; exact .nop
  | sreset => exact absurd rfl hi
  | steam => cases h; exact .steam
  | b32enc =>
    simp only [outcome, performB32enc] at h
    split_ifs at h with hl
    cases h; exact .b32enc (by omega)
  | b32dec =>
    simp only [outcome, performB32dec] at h
    split_ifs at h with hl
    obtain ⟨out, ho, rfl⟩ := map_ok h
    exact .b32dec out (by omega) ho
  | trunc => obtain ⟨⟨off, fc⟩, hf, rfl⟩ := map_ok h; exact .trunc off fc hf
  | decimal => obtain ⟨c, hc, rfl⟩ := map_ok h; exact .decimal c hc
  | hotp =>
    simp only [outcome, performHotp] at h
    split at h
    · cases h
    · next off fc hf => obtain ⟨c, hc, rfl⟩ := map_ok h; exact .hotp off fc c hf hc
  | steamcode => obtain ⟨⟨off, fc⟩, hf, rfl⟩ := map_ok h; exact .steamcode off fc hf

/-- The inversion of a completion: a success with its commits, or one recorded error. -/
theorem exec_cases {i : Instr} {s t : State} (hi : i ≠ .sreset) (h : exec i s = .next t) :
    (∃ u, Commits s i u ∧ t = succeed u) ∨ ∃ e, outcome i s = .error e ∧ t = raise e s := by
  rw [exec_eq_complete i s hi] at h
  rcases complete_cases (outcome i s) s with ⟨u, ho, h'⟩ | ⟨e, ho, h'⟩ <;> rw [h'] at h <;> cases h
  · exact .inl ⟨u, outcome_ok hi ho, rfl⟩
  · exact .inr ⟨e, ho, rfl⟩

/-! ## The full-code function -/

theorem digestLength_of_mem (a : BitVec 3) (len : Nat) (h : (a, len) ∈ algorithms) : digestLength a = some len := by
  simp only [algorithms, List.mem_cons, List.not_mem_nil, or_false, Prod.mk.injEq] at h
  rcases h with ⟨rfl, rfl⟩ | ⟨rfl, rfl⟩ | ⟨rfl, rfl⟩ | ⟨rfl, rfl⟩ | ⟨rfl, rfl⟩ <;> rfl

theorem digestLength_eq_none (a : BitVec 3) : digestLength a = none ↔ 4 < a.toNat := by revert a; decide

theorem mem_algorithms (a : BitVec 3) (h : a.toNat ≤ 4) : ∃ len, (a, len) ∈ algorithms := by
  have : ∀ a : BitVec 3, a.toNat ≤ 4 → ∃ r ∈ algorithms, r.1 = a := by decide
  obtain ⟨⟨_, len⟩, hr, rfl⟩ := this a h
  exact ⟨len, hr⟩

theorem len_of_mem_algorithms (a : BitVec 3) (len : Nat) (h : (a, len) ∈ algorithms) :
    16 ≤ len ∧ len ≤ 64 ∧ (len < 20 → a = 4 ∧ len = 16) := by
  have : ∀ r ∈ algorithms, 16 ≤ r.2 ∧ r.2 ≤ 64 ∧ (r.2 < 20 → r.1 = 4 ∧ r.2 = 16) := by decide
  exact this _ h

/-- The full code as a number. -/
theorem toNat_selected (b0 b1 b2 b3 : Byte) : ((b0 ++ b1 ++ b2 ++ b3 : BitVec (8 + 8 + 8 + 8)).extractLsb' 0 31).toNat =
    (b0.toNat * 2 ^ 24 + b1.toNat * 2 ^ 16 + b2.toNat * 2 ^ 8 + b3.toNat) % 2 ^ 31 := by
  have e : ∀ (w : Nat) (a : BitVec w) (b : Byte), (a ++ b).toNat = a.toNat * 2 ^ 8 + b.toNat := by
    intro w a b
    rw [BitVec.toNat_append, Nat.shiftLeft_eq, Nat.mul_comm, ← Nat.two_pow_add_eq_or_of_lt b.isLt]
  simp only [BitVec.extractLsb'_toNat, e, Nat.shiftRight_zero]
  omega

/-- The checks pass: the offset and the big-endian full code (spec/41_truncation.md R72). -/
theorem fullCode_ok (a : BitVec 3) (len : Nat) (strict : Bool) (keylen : Word) (d : Nat → Byte) (hl : (a, len) ∈ algorithms)
    (hk : keylen ≠ 0) (hs : strict = true → 16 ≤ keylen.toNat ∧ a = 0) (ho : (d (len - 1)).toNat % 16 + 4 ≤ len) :
    fullCode a strict keylen d = .ok (BitVec.ofNat 4 ((d (len - 1)).toNat % 16),
      BitVec.ofNat 31 (((d ((d (len - 1)).toNat % 16)).toNat * 2 ^ 24 + (d ((d (len - 1)).toNat % 16 + 1)).toNat * 2 ^ 16
        + (d ((d (len - 1)).toNat % 16 + 2)).toNat * 2 ^ 8 + (d ((d (len - 1)).toNat % 16 + 3)).toNat) % 2 ^ 31)) := by
  have eo : ((d (len - 1)).extractLsb' 0 4).toNat = (d (len - 1)).toNat % 16 := by simp
  have h₁ : ¬ (strict = true ∧ keylen.toNat < 16) := fun h => by have := (hs h.1).1; omega
  have h₂ : ¬ (strict = true ∧ a ≠ 0) := fun h => h.2 (hs h.1).2
  simp only [fullCode, digestLength_of_mem a len hl, hk, h₁, h₂, eo, if_false, if_neg (show ¬ (d (len - 1)).toNat % 16 + 4 > len by omega)]
  congr 2
  · apply BitVec.eq_of_toNat_eq; rw [eo, BitVec.toNat_ofNat]; omega
  · apply BitVec.eq_of_toNat_eq
    rw [BitVec.toNat_ofNat, Nat.mod_mod]
    exact toNat_selected _ _ _ _

/-- The last check fails. -/
theorem fullCode_range (a : BitVec 3) (len : Nat) (strict : Bool) (keylen : Word) (d : Nat → Byte) (hl : (a, len) ∈ algorithms)
    (hk : keylen ≠ 0) (hs : strict = true → 16 ≤ keylen.toNat ∧ a = 0) (ho : len < (d (len - 1)).toNat % 16 + 4) :
    fullCode a strict keylen d = .error .digestRange := by
  have eo : ((d (len - 1)).extractLsb' 0 4).toNat = (d (len - 1)).toNat % 16 := by simp
  have h₁ : ¬ (strict = true ∧ keylen.toNat < 16) := fun h => by have := (hs h.1).1; omega
  have h₂ : ¬ (strict = true ∧ a ≠ 0) := fun h => h.2 (hs h.1).2
  simp only [fullCode, digestLength_of_mem a len hl, hk, h₁, h₂, eo, if_false, if_pos (show (d (len - 1)).toNat % 16 + 4 > len by omega)]

/-- The full-code function has five errors and no other (spec/60_exceptions.md R90). -/
theorem fullCode_error (a : BitVec 3) (strict : Bool) (keylen : Word) (d : Nat → Byte) (e : ErrorKind)
    (h : fullCode a strict keylen d = .error e) :
    e ∈ [ErrorKind.unsupportedAlgorithm, .invalidSecret, .noncompliant, .digestRange] := by
  unfold fullCode at h
  split at h
  · cases h; simp
  · dsimp only at h
    split_ifs at h <;> cases h <;> simp

/-! ## Codes -/

@[simp] theorem length_steamDigits (n : Nat) : ∀ f, (steamDigits n f).length = n := by
  induction n with
  | zero => intro f; rfl
  | succ n ih => intro f; simp [steamDigits, ih]

/-- Character `i` is base-26 digit `i` (spec/41_truncation.md R78). -/
theorem getD_steamDigits (n : Nat) : ∀ (f i : Nat), i < n →
    (steamDigits n f).getD i 0x00 = steamAlphabet.getD (f / 26 ^ i % 26) 0x00 := by
  induction n with
  | zero => intro f i h; omega
  | succ n ih =>
    intro f i h
    cases i with
    | zero => simp [steamDigits]
    | succ i =>
      rw [steamDigits, List.getD_cons_succ, ih _ i (by omega), Nat.div_div_eq_div_mul, ← Nat.pow_succ']

/-- CODE[i] of a vector of 16 characters. -/
theorem codeByte_ofFn (s : State) (f : Fin 16 → Byte) (h : s.code = Vector.ofFn f) (i : Nat) :
    s.codeByte i = if hi : i < 16 then f ⟨i, hi⟩ else 0x00 := by
  rw [State.codeByte, h]
  split_ifs with hi
  · simp [List.getD, hi]
  · simp [List.getD, hi]

end Sys2Proof.Machine
end

