-- ==== Sys2Proof/Laws/PerInstr.lean ====
section
/-! SUPPORT. The statements made per instruction: about each command as syntax, one lemma per constructor. -/

namespace Sys2Proof.Laws.EncodeShape

/-- The command is well formed and its word passes the checks on command words (spec/30_encoding.md R51, R52). -/
def Statement (i : Instr) : Prop := i.wellFormed = true ∧ wordWellFormed (encode i) = true

theorem nop : Statement .nop := ⟨rfl, by decide⟩

theorem b32enc : Statement .b32enc := ⟨rfl, by decide⟩

theorem b32dec : Statement .b32dec := ⟨rfl, by decide⟩

theorem trunc : Statement .trunc := ⟨rfl, by decide⟩

theorem decimal : Statement .decimal := ⟨rfl, by decide⟩

theorem steam : Statement .steam := ⟨rfl, by decide⟩

theorem hotp : Statement .hotp := ⟨rfl, by decide⟩

theorem steamcode : Statement .steamcode := ⟨rfl, by decide⟩

theorem sreset : Statement .sreset := ⟨rfl, by decide⟩

end Sys2Proof.Laws.EncodeShape
end

