-- ==== Sys2Proof/Laws/Step.lean ====
section
/-! SUPPORT. What one step can do, said once: the cases of a transaction, of a host turn and of a step. -/

namespace Sys2Proof.Machine

theorem step_nil (s : State) (h : s.schedule = []) : step s = defaultTurn s := by simp [step, h]

theorem step_cons (s : State) (t : Turn) (ts : List Turn) (h : s.schedule = t :: ts) :
    step s = takeTurn t (s.setSchedule ts) := by simp [step, h]

/-- The host issues `t`: the step is that transaction. -/
theorem step_issuing (s : State) (t : BusOp) : step (s.issuing t) = transact t (s.setPin true) := rfl

/-- The host's legal write: its effect on top of the OKAY response. -/
theorem step_write (s : State) (a : Offset) (n : Size) (v : Word) (tgt : Target)
    (h : target s.params a.toNat n.bytes = some tgt) :
    step (s.issuing (.write a n v)) = writeTarget n.bytes v (s.answered (.write .okay)) tgt := by
  rw [step_issuing]; simp only [transact, setPin_params, h]; rfl

/-- The host's legal read: the OKAY response and nothing else. -/
theorem step_read (s : State) (a : Offset) (n : Size) (tgt : Target) (h : target s.params a.toNat n.bytes = some tgt) :
    step (s.issuing (.read a n)) = .next (s.answered (.read .okay (readTarget s n.bytes tgt))) := by
  rw [step_issuing]; simp only [transact, busRead, setPin_params, h]
  cases tgt with
  | reg r => cases r <;> rfl
  | window w i => cases w <;> rfl

/-- An illegal transaction: the ERROR response and nothing else. -/
theorem step_illegal (s : State) (a : Offset) (n : Size) (v : Word) (h : target s.params a.toNat n.bytes = none) :
    step (s.issuing (.read a n)) = .next (s.answered (.read .error 0))
      ∧ step (s.issuing (.write a n v)) = .next (s.answered (.write .error)) := by
  constructor <;> rw [step_issuing] <;> simp only [transact, busRead, setPin_params, h] <;> rfl

theorem completeLatched_ok (s : State) (i : Instr) (h : decodeWord s.latched = .ok i) : completeLatched s = exec i s := by
  simp [completeLatched, h]

theorem completeLatched_error (s : State) (e : DecodeError) (h : decodeWord s.latched = .error e) :
    completeLatched s = .next (raise .illegalCmd s) := by
  simp [completeLatched, h, complete]

/-- The engine's scheduled turn with a command pending. -/
theorem step_engine (s : State) (ts : List Turn) (hs : s.schedule = .engine :: ts) (hr : s.rstN = true)
    (hb : s.status.busy = true) : step s = completeLatched (s.setSchedule ts) := by
  rw [step_cons s _ _ hs]; exact if_pos (by simp [hr, hb])

/-- The engine's scheduled turn with nothing to do. -/
theorem step_engine_idle (s : State) (ts : List Turn) (hs : s.schedule = .engine :: ts)
    (h : s.rstN = false ∨ s.status.busy = false) : step s = .next (s.setSchedule ts) := by
  rw [step_cons s _ _ hs]; exact if_neg (by rcases h with h | h <;> simp [h])

/-- The host's scheduled turn. -/
theorem step_host (s : State) (ts : List Turn) (hs : s.schedule = .host :: ts) : step s = hostTurn (s.setSchedule ts) :=
  step_cons s _ _ hs

/-- The rising edge. -/
theorem step_resetHigh (s : State) (ts : List Turn) (hs : s.schedule = .resetHigh :: ts) (hr : s.rstN = false) :
    step s = .next (releaseReset (s.setSchedule ts)) := by
  rw [step_cons s _ _ hs]; exact congrArg Host.Outcome.next (if_neg (by simp [hr]))

/-- The falling edge. -/
theorem step_resetLow (s : State) (ts : List Turn) (hs : s.schedule = .resetLow :: ts) (hr : s.rstN = true) :
    step s = .next (assertReset (s.setSchedule ts)) := by
  rw [step_cons s _ _ hs]; exact congrArg Host.Outcome.next (if_pos hr)

/-- Nothing scheduled: the completion first, while one is pending. -/
theorem step_default_engine (s : State) (hs : s.schedule = []) (hr : s.rstN = true) (hb : s.status.busy = true) :
    step s = completeLatched s := by
  rw [step_nil s hs, defaultTurn, if_neg (by simp [hr]), if_pos hb]; exact if_pos (by simp [hr, hb])

/-- Nothing scheduled and the engine idle: the host. -/
theorem step_default_host (s : State) (hs : s.schedule = []) (hr : s.rstN = true) (hb : s.status.busy = false) :
    step s = hostTurn s := by
  rw [step_nil s hs, defaultTurn, if_neg (by simp [hr]), if_neg (by simp [hb])]

/-- A pending completion answers a next state: a command's, or the recorded illegal word. -/
theorem completeLatched_cases (s : State) :
    (∃ i, decodeWord s.latched = .ok i ∧ completeLatched s = exec i s)
      ∨ completeLatched s = .next (raise .illegalCmd s) := by
  cases h : decodeWord s.latched with
  | ok i => exact .inl ⟨i, rfl, completeLatched_ok s i h⟩
  | error e => exact .inr (completeLatched_error s e h)

theorem completeLatched_next (s : State) : ∃ t, completeLatched s = .next t := by
  rcases completeLatched_cases s with ⟨i, _, h⟩ | h
  · rw [h]; exact exec_next i s
  · exact ⟨_, h⟩

/-- What the host can write: nothing, an input register or window while idle, WOVR while busy, STATUS, an accepted word,
or SRESET (spec/20_memory.md R41). -/
inductive WriteEffect (s : State) : State → Prop
  | nothing : WriteEffect s s
  | dropped (h : s.status.busy = true) : WriteEffect s (dropWrite s)
  | status (v : Word) : WriteEffect s (acknowledge v s)
  | accepted (w : Word) (h : s.status.busy = false) (hw : w ≠ sresetWord) : WriteEffect s (accept w s)
  | reset : WriteEffect s (softReset s)
  | ctrl (c : Ctrl) (h : s.status.busy = false) : WriteEffect s (s.setCtrl c)
  | keylen (v : Word) (h : s.status.busy = false) : WriteEffect s (s.setKeylen v)
  | fullcode (v : BitVec 31) (h : s.status.busy = false) : WriteEffect s (s.setFullcode v)
  | blen (v : BitVec 16) (h : s.status.busy = false) : WriteEffect s (s.setBlen v)
  | tlen (v : BitVec 16) (h : s.status.busy = false) : WriteEffect s (s.setTlen v)
  | window (w : Window) (i : Nat) (bs : List Byte) (h : s.status.busy = false) (hw : w ≠ .code)
      (hi : i + bs.length ≤ w.size s.params) : WriteEffect s (s.writeRam (w.base + i) bs)

theorem storeInput_busy (t s : State) (h : s.status.busy = true) : storeInput t s = dropWrite s := by simp [storeInput, h]

theorem storeInput_idle (t s : State) (h : s.status.busy = false) : storeInput t s = t := by simp [storeInput, h]

theorem writeEffect_storeInput (s t : State) (h : s.status.busy = false → WriteEffect s t) :
    WriteEffect s (storeInput t s) := by
  cases hb : s.status.busy with
  | true => rw [storeInput_busy t s hb]; exact .dropped hb
  | false => rw [storeInput_idle t s hb]; exact h hb

@[simp] theorem writeTarget_reg (n : Nat) (v : Word) (s : State) (r : Reg) : writeTarget n v s (.reg r) = writeReg v s r := rfl

/-- SRESET's word at CMD (spec/42_control.md R81). -/
theorem writeReg_cmd_sreset (s : State) : writeReg 0x000000FF s .cmd = exec .sreset s := by
  rw [writeReg, writeCmd, if_pos (by decide)]

/-- Any other word at CMD (spec/60_exceptions.md R86, spec/70_reset_and_hazards.md R107). -/
theorem writeReg_cmd (w : Word) (s : State) (h : w ≠ 0x000000FF) :
    writeReg w s .cmd = .next (storeInput (accept w s) s) := by
  rw [writeReg, writeCmd, if_neg (by exact h)]

theorem target_bound (p : Params) (a n : Nat) (w : Window) (i : Nat) (h : target p a n = some (.window w i)) :
    i + n ≤ w.size p ∧ a = w.base + i := by
  unfold target at h
  split_ifs at h with h₁ h₂ h₃
  · simp at h
  · cases hw : windowAt p a with
    | none => simp [hw] at h
    | some v =>
      simp only [hw] at h
      split_ifs at h with h₄
      · simp only [Option.some.injEq, Target.window.injEq] at h
        obtain ⟨rfl, rfl⟩ := h
        have := holds_of_windowAt p a v hw
        omega

theorem target_reg (p : Params) (a n : Nat) (r : Reg) (h : target p a n = some (.reg r)) : regAt a = some r ∧ n = 4 := by
  unfold target at h
  split_ifs at h with h₁ h₂ h₃
  · exact ⟨by simpa using h, h₃⟩
  · cases hw : windowAt p a <;> simp [hw] at h

/-- While BUSY, a write other than SRESET is ignored, dropped or clears STATUS bits (spec/70_reset_and_hazards.md R107). -/
theorem writeTarget_busy (n : Nat) (v : Word) (s : State) (tgt : Target) (hb : s.status.busy = true)
    (h : tgt = .reg .cmd → v ≠ 0x000000FF) :
    ∃ t, writeTarget n v s tgt = .next t ∧ (t = s ∨ t = dropWrite s ∨ t = acknowledge v s) := by
  cases tgt with
  | window w i =>
    cases w with
    | code => exact ⟨_, rfl, .inl rfl⟩
    | digest => exact ⟨_, rfl, .inr (.inl (storeInput_busy _ _ hb))⟩
    | bbuf => exact ⟨_, rfl, .inr (.inl (storeInput_busy _ _ hb))⟩
    | tbuf => exact ⟨_, rfl, .inr (.inl (storeInput_busy _ _ hb))⟩
  | reg r =>
    cases r with
    | cmd => exact ⟨_, writeReg_cmd v s (h rfl), .inr (.inl (storeInput_busy _ _ hb))⟩
    | status => exact ⟨_, rfl, .inr (.inr rfl)⟩
    | ctrl => exact ⟨_, rfl, .inr (.inl (storeInput_busy _ _ hb))⟩
    | keylen => exact ⟨_, rfl, .inr (.inl (storeInput_busy _ _ hb))⟩
    | fullcode => exact ⟨_, rfl, .inr (.inl (storeInput_busy _ _ hb))⟩
    | blen => exact ⟨_, rfl, .inr (.inl (storeInput_busy _ _ hb))⟩
    | tlen => exact ⟨_, rfl, .inr (.inl (storeInput_busy _ _ hb))⟩
    | id => exact ⟨_, rfl, .inl rfl⟩
    | version => exact ⟨_, rfl, .inl rfl⟩
    | offset => exact ⟨_, rfl, .inl rfl⟩
    | codelen => exact ⟨_, rfl, .inl rfl⟩
    | params => exact ⟨_, rfl, .inl rfl⟩

/-- A legal write ends in one of the effects. -/
theorem writeTarget_cases (s : State) (n : Nat) (v : Word) (tgt : Target)
    (hb : ∀ w i, tgt = .window w i → i + n ≤ w.size s.params) :
    ∃ t, writeTarget n v s tgt = .next t ∧ WriteEffect s t := by
  cases tgt with
  | reg r =>
    cases r with
    | cmd =>
      by_cases h : v = sresetWord
      · exact ⟨softReset s, by rw [writeTarget, writeReg, writeCmd, if_pos h]; rfl, .reset⟩
      · exact ⟨_, by simp only [writeTarget, writeReg, writeCmd, h, if_false],
          writeEffect_storeInput _ _ fun hi => .accepted v hi h⟩
    | status => exact ⟨_, rfl, .status v⟩
    | ctrl => exact ⟨_, rfl, writeEffect_storeInput _ _ (.ctrl _)⟩
    | keylen => exact ⟨_, rfl, writeEffect_storeInput _ _ (.keylen _)⟩
    | fullcode => exact ⟨_, rfl, writeEffect_storeInput _ _ (.fullcode _)⟩
    | blen => exact ⟨_, rfl, writeEffect_storeInput _ _ (.blen _)⟩
    | tlen => exact ⟨_, rfl, writeEffect_storeInput _ _ (.tlen _)⟩
    | id => exact ⟨_, rfl, .nothing⟩
    | version => exact ⟨_, rfl, .nothing⟩
    | offset => exact ⟨_, rfl, .nothing⟩
    | codelen => exact ⟨_, rfl, .nothing⟩
    | params => exact ⟨_, rfl, .nothing⟩
  | window w i =>
    have hi := hb w i rfl
    cases w with
    | code => exact ⟨_, rfl, .nothing⟩
    | digest =>
      exact ⟨_, rfl, writeEffect_storeInput _ _ fun h =>
        .window .digest i _ h (by decide) (by rw [length_unpackLanes]; exact hi)⟩
    | bbuf =>
      exact ⟨_, rfl, writeEffect_storeInput _ _ fun h =>
        .window .bbuf i _ h (by decide) (by rw [length_unpackLanes]; exact hi)⟩
    | tbuf =>
      exact ⟨_, rfl, writeEffect_storeInput _ _ fun h =>
        .window .tbuf i _ h (by decide) (by rw [length_unpackLanes]; exact hi)⟩

/-- A transaction only records its response, or makes one write's effect on top of it (spec/20_memory.md R40, R41). -/
theorem transact_cases (t : BusOp) (s : State) :
    ∃ u r, transact t s = .next u ∧ WriteEffect (s.respond r) u := by
  cases t with
  | read a n => exact ⟨_, _, rfl, .nothing⟩
  | write a n v =>
    cases h : target s.params a.toNat n.bytes with
    | none => exact ⟨_, _, by simp only [transact, h]; rfl, .nothing⟩
    | some tgt =>
      obtain ⟨u, hu, he⟩ := writeTarget_cases (s.respond (.write .okay)) n.bytes v tgt
        (fun w i e => by subst e; exact (target_bound _ _ _ _ _ h).1)
      exact ⟨u, _, by simp only [transact, h]; exact hu, he⟩

/-- Everything one step can do, once the schedule's turn is taken. -/
inductive StepEffect (s : State) : State → Prop
  | idle : StepEffect s s
  | completed (t : State) (hr : s.rstN = true) (hb : s.status.busy = true) (h : completeLatched s = .next t) : StepEffect s t
  | host (rest : List HostOp) (r : Response) (t : State) (hr : s.rstN = true)
      (h : WriteEffect ((s.setHost rest).respond r) t) : StepEffect s t
  | resetLow (hr : s.rstN = true) : StepEffect s (assertReset s)
  | resetHigh (hr : s.rstN = false) : StepEffect s (releaseReset s)

theorem engineTurn_cases (s : State) : ∃ t, engineTurn s = .next t ∧ StepEffect s t := by
  unfold engineTurn
  split_ifs with h
  · obtain ⟨t, ht⟩ := completeLatched_next s
    rw [Bool.and_eq_true] at h
    exact ⟨t, ht, .completed t h.1 h.2 ht⟩
  · exact ⟨s, rfl, .idle⟩

theorem hostTurn_nil (s : State) (hh : s.host = []) : hostTurn s = .next s := by unfold hostTurn; rw [hh]

theorem hostTurn_txn (s : State) (t : BusOp) (rest : List HostOp) (hr : s.rstN = true) (hh : s.host = .txn t :: rest) :
    hostTurn s = transact t (s.setHost rest) := by
  unfold hostTurn; rw [hh]; exact if_neg (by simp [hr])

theorem hostTurn_wait (s : State) (rest : List HostOp) (hr : s.rstN = true) (hh : s.host = .wait :: rest) :
    hostTurn s = .next (poll rest s) := by
  unfold hostTurn; rw [hh]; exact if_neg (by simp [hr])

theorem hostTurn_inReset (s : State) (hr : s.rstN = false) (hh : s.host ≠ []) :
    hostTurn s = .fault .transactionDuringReset := by
  obtain ⟨op, rest, hh⟩ := List.exists_cons_of_ne_nil hh
  unfold hostTurn; rw [hh]; exact if_pos hr

theorem hostTurn_cases (s : State) :
    (∃ t, hostTurn s = .next t ∧ StepEffect s t)
      ∨ (hostTurn s = .fault .transactionDuringReset ∧ s.rstN = false ∧ s.host ≠ []) := by
  match hh : s.host with
  | [] => exact .inl ⟨s, hostTurn_nil s hh, .idle⟩
  | op :: rest =>
    by_cases hr : s.rstN = false
    · exact .inr ⟨hostTurn_inReset s hr (by simp [hh]), hr, by simp⟩
    · left
      have hr' : s.rstN = true := by simpa using hr
      cases op with
      | txn t =>
        obtain ⟨u, r, hu, he⟩ := transact_cases t (s.setHost rest)
        exact ⟨u, (hostTurn_txn s t rest hr' hh).trans hu, .host rest r u hr' he⟩
      | wait =>
        exact ⟨poll rest s, hostTurn_wait s rest hr' hh,
          .host (if s.status.busy then s.host else rest) _ _ hr' .nothing⟩

/-- The inversion of a step: a next state by one of the effects, or the one fault. -/
theorem step_cases (s : State) :
    (∃ t ts, step s = .next t ∧ StepEffect (s.setSchedule ts) t ∧ (ts = s.schedule.tail))
      ∨ (step s = .fault .transactionDuringReset ∧ s.rstN = false ∧ s.host ≠ [] ∧ ∃ ts, s.schedule = .host :: ts) := by
  cases hs : s.schedule with
  | nil =>
    left
    have e : s.setSchedule [] = s := by cases s; simp_all [State.setSchedule]
    rw [step_nil s hs]
    unfold defaultTurn
    split_ifs with h₁ h₂
    · exact ⟨s, [], rfl, e ▸ .idle, rfl⟩
    · obtain ⟨t, ht, he⟩ := engineTurn_cases s
      exact ⟨t, [], ht, by rw [e]; exact he, rfl⟩
    · rcases hostTurn_cases s with ⟨t, ht, he⟩ | ⟨_, h, _⟩
      · exact ⟨t, [], ht, by rw [e]; exact he, rfl⟩
      · exact absurd h h₁
  | cons tn ts =>
    rw [step_cons s tn ts hs]
    cases tn with
    | host =>
      rcases hostTurn_cases (s.setSchedule ts) with ⟨t, ht, he⟩ | ⟨h, hr, hh⟩
      · exact .inl ⟨t, ts, ht, he, rfl⟩
      · exact .inr ⟨h, hr, hh, ts, rfl⟩
    | engine =>
      obtain ⟨t, ht, he⟩ := engineTurn_cases (s.setSchedule ts)
      exact .inl ⟨t, ts, ht, he, rfl⟩
    | resetLow =>
      left
      by_cases hr : s.rstN = true
      · exact ⟨_, ts, congrArg Host.Outcome.next (if_pos hr), .resetLow hr, rfl⟩
      · exact ⟨_, ts, congrArg Host.Outcome.next (if_neg hr), .idle, rfl⟩
    | resetHigh =>
      left
      by_cases hr : s.rstN = true
      · exact ⟨_, ts, congrArg Host.Outcome.next (if_pos hr), .idle, rfl⟩
      · exact ⟨_, ts, congrArg Host.Outcome.next (if_neg hr), .resetHigh (by simpa using hr), rfl⟩

/-! ## What keeps the pin and the schedule -/

theorem writeEffect_keeps {s t : State} (h : WriteEffect s t) : t.rstN = s.rstN ∧ t.schedule = s.schedule := by
  cases h <;> exact ⟨rfl, rfl⟩

theorem exec_keeps {i : Instr} {s t : State} (h : exec i s = .next t) : t.rstN = s.rstN ∧ t.schedule = s.schedule := by
  by_cases hi : i = .sreset
  · subst hi; rw [exec_sreset] at h; injection h with h; subst h; exact ⟨rfl, rfl⟩
  · rcases exec_cases hi h with ⟨u, hc, rfl⟩ | ⟨e, _, rfl⟩
    · cases hc <;> exact ⟨rfl, rfl⟩
    · exact ⟨rfl, rfl⟩

theorem completeLatched_keeps {s t : State} (h : completeLatched s = .next t) :
    t.rstN = s.rstN ∧ t.schedule = s.schedule := by
  rcases completeLatched_cases s with ⟨i, _, hx⟩ | hx
  · exact exec_keeps (hx ▸ h)
  · rw [hx] at h; injection h with h; subst h; exact ⟨rfl, rfl⟩

/-- The engine's turn answers a next state with the pin and the schedule as before. -/
theorem engineTurn_keeps (s : State) : ∃ t, engineTurn s = .next t ∧ t.rstN = s.rstN ∧ t.schedule = s.schedule := by
  unfold engineTurn
  split
  · obtain ⟨t, ht⟩ := completeLatched_next s; exact ⟨t, ht, completeLatched_keeps ht⟩
  · exact ⟨s, rfl, rfl, rfl⟩

/-- With `rst_n` high the host's turn answers a next state with the pin and the schedule as before. -/
theorem hostTurn_keeps (s : State) (hr : s.rstN = true) :
    ∃ t, hostTurn s = .next t ∧ t.rstN = s.rstN ∧ t.schedule = s.schedule := by
  match hh : s.host with
  | [] => exact ⟨s, hostTurn_nil s hh, rfl, rfl⟩
  | .txn t :: rest =>
    obtain ⟨u, r, hu, he⟩ := transact_cases t (s.setHost rest)
    exact ⟨u, (hostTurn_txn s t rest hr hh).trans hu, writeEffect_keeps (s := (s.setHost rest).respond r) he⟩
  | .wait :: rest => exact ⟨_, hostTurn_wait s rest hr hh, rfl, rfl⟩

end Sys2Proof.Machine
end

