-- ==== Sys2Proof/Tests/Slice0.lean ====
section
/-! SUPPORT. Tests: the checks of WellFormed, the words of the opcode map, one step per behaviour with results taken from
spec/95_test_vectors.md, and a witness for the hypotheses of every statement. -/

namespace Sys2Proof.Tests

open Sys2Proof Sys2Proof.Machine

/-! ## Helpers -/

/-- The outcome is a next state with the property. -/
def leads (o : Host.Outcome State Fault Refusal) (p : State → Bool) : Bool :=
  match o with
  | .next t => p t
  | .fault _ => false
  | .refused _ => false

/-- After reset, with a digest, KEYLEN and CTRL written. -/
def digestState (d : List Byte) (keylen ctrl : Word) : State :=
  ((State.reset.writeRam 0x040 d).setKeylen keylen).setCtrl (ctrlOfWord ctrl)

/-- After reset, with bytes in BBUF and BLEN their number. -/
def bytesState (bs : List Byte) : State := (State.reset.writeRam 0x100 bs).setBlen (BitVec.ofNat 16 bs.length)

/-- After reset, with text in TBUF and TLEN its length. -/
def textState (cs : List Char) : State :=
  (State.reset.writeRam 0x400 (cs.map fun c => BitVec.ofNat 8 c.toNat)).setTlen (BitVec.ofNat 16 cs.length)

/-- After reset, with FULLCODE and CTRL written. -/
def codeState (fc : BitVec 31) (ctrl : Word) : State := (State.reset.setFullcode fc).setCtrl (ctrlOfWord ctrl)

/-- After reset, with STATUS as given. -/
def statusState (st : Status) : State := { State.reset with status := st }

/-- After reset, with a command pending. -/
def busyState (w : Word) : State := accept w State.reset

/-- The digest of vector T-00. -/
def digestT00 : List Byte :=
  [0xCC, 0x93, 0xCF, 0x18, 0x50, 0x8D, 0x94, 0x93, 0x4C, 0x64, 0xB6, 0x5D, 0x8B, 0xA7, 0x66, 0x7F, 0xB7, 0xCD, 0xE4, 0xB0]

/-- The digest of vector T-16, whose offset is 15. -/
def digestT16 : List Byte :=
  [0x25, 0xA3, 0x26, 0xD3, 0x1F, 0xC3, 0x66, 0x24, 0x4C, 0xAD, 0x05, 0x49, 0x76, 0x02, 0x0C, 0x7B, 0x56, 0xB1, 0x3D, 0x5F]

/-- The MD5 digest of vector T-54, whose offset is 13. -/
def digestT54 : List Byte :=
  [0xF3, 0xC8, 0xB0, 0x51, 0x00, 0x95, 0xF0, 0x6B, 0xC2, 0xB3, 0xD6, 0x0C, 0xB2, 0xF9, 0x71, 0x9D]

/-- STATUS reads as the value. -/
def statusIs (v : Word) (t : State) : Bool := readReg t .status == v

/-- CODE begins with the text and is zero behind it. -/
def codeIs (cs : List Char) (t : State) : Bool :=
  t.codelen.toNat == cs.length
    && t.code.toList == (cs.map fun c => BitVec.ofNat 8 c.toNat) ++ List.replicate (16 - cs.length) 0x00

/-- TBUF begins with the text and TLEN is its length. -/
def textIs (cs : List Char) (t : State) : Bool := t.tbufText == cs.map fun c => BitVec.ofNat 8 c.toNat

/-! ## The checks of WellFormed -/

theorem test_reserved_bits_refused : reservedBitsZero 0x00000100 = false ∧ reservedBitsZero 0x000000FF = true := by decide

theorem test_opcode_refused : opcodeAssigned 0x00000003 = false ∧ opcodeAssigned 0x00000014 = true := by decide

theorem test_word_refused : wordWellFormed 0x000001FF = false ∧ wordWellFormed 0x00000015 = false := by decide

theorem test_misaligned_refused : (BusOp.read 0x042 .word).aligned = false ∧ (BusOp.write 0x041 .half 0).aligned = false := by
  decide

theorem test_sizes_refused : Params.wellFormed ⟨321, 513⟩ = false ∧ Params.wellFormed ⟨0, 0⟩ = false
    ∧ Params.wellFormed ⟨770, 1232⟩ = false ∧ Params.wellFormed ⟨320, 511⟩ = false := by decide

theorem test_sizes_accepted : Params.wellFormed Params.default = true ∧ Params.wellFormed ⟨5, 8⟩ = true
    ∧ Params.wellFormed ⟨765, 1224⟩ = true := by decide

/-! ## The words of spec/30_encoding.md R52, bit by bit -/

theorem test_decode_nop : decodeWord 0b00000000000000000000000000000000 = .ok .nop := by decide

theorem test_decode_b32enc : decodeWord 0b00000000000000000000000000000001 = .ok .b32enc := by decide

theorem test_decode_b32dec : decodeWord 0b00000000000000000000000000000010 = .ok .b32dec := by decide

theorem test_decode_trunc : decodeWord 0b00000000000000000000000000010000 = .ok .trunc := by decide

theorem test_decode_decimal : decodeWord 0b00000000000000000000000000010001 = .ok .decimal := by decide

theorem test_decode_steam : decodeWord 0b00000000000000000000000000010010 = .ok .steam := by decide

theorem test_decode_hotp : decodeWord 0b00000000000000000000000000010011 = .ok .hotp := by decide

theorem test_decode_steamcode : decodeWord 0b00000000000000000000000000010100 = .ok .steamcode := by decide

theorem test_decode_sreset : decodeWord 0b00000000000000000000000011111111 = .ok .sreset := by decide

theorem test_decode_illegal : decodeWord 0x000001FF = .error .reservedBits ∧ decodeWord 0x00000003 = .error .unassignedOpcode
    ∧ decodeBytes [0x13] = .error .notOneWord := by decide

theorem test_decode_table_word : decodeTableWord 32 0x13 = some .hotp ∧ decodeTableWord 32 0xFF = some .sreset
    ∧ decodeTableWord 32 0x1FF = none := by decide

/-! ## The first step after reset -/

theorem test_fetched_nop_runs : leads (step (State.reset.withFetchWord 32 0x00)) (statusIs 0x00000002) = true := by decide

theorem test_fetched_sreset_runs : leads (step (State.reset.withFetchWord 32 0xFF)) (statusIs 0x00000000) = true := by decide

/-! ## NOP and SRESET -/

/-- Vector C-12: acceptance and completion do not clear WOVR. -/
theorem test_nop_keeps_wovr : leads (exec .nop (statusState ⟨true, false, false, true, 0x00⟩)) (statusIs 0x0000000A) = true := by
  decide

/-- Vector C-22, and R81: TLEN and CTRL are reset, TBUF is kept. -/
theorem test_sreset_aborts : leads (step ((busyState 0x00000001).issuing (.write 0x00C .word 0x000000FF)))
    (fun t => statusIs 0x00000000 t && readReg t .ctrl == 0x00000060 && t.latched == 0) = true := by decide

theorem test_sreset_keeps_tbuf : leads (exec .sreset (textState ['M'])) (fun t => t.element .tbuf 0 == 0x4D && t.tlen == 0)
    = true := by decide

/-! ## TRUNC, HOTP, STEAMCODE -/

/-- Vector T-16: offset 15, the last bytes a SHA1 digest gives. -/
theorem test_trunc_offset_15 : leads (exec .trunc (digestState digestT16 20 0x00000060))
    (fun t => t.offset == 15 && t.fullcode == 0x7B56B13D && statusIs 0x00000002 t) = true := by decide

/-- Vector T-54: MD5 with offset 13 reads past its digest. -/
theorem test_trunc_digest_range : leads (exec .trunc (digestState digestT54 20 0x00000064))
    (fun t => t.offset == 0 && t.fullcode == 0 && statusIs 0x00000506 t) = true := by decide

/-- Vector T-24: the mask on bit 31 and nine digits. -/
theorem test_hotp_nine_digits : leads (exec .hotp (digestState digestT00 20 0x00000090))
    (codeIs ['2', '8', '4', '7', '5', '5', '2', '2', '4']) = true := by decide

/-- Vector T-25: a bad digit count leaves OFFSET and FULLCODE too. -/
theorem test_hotp_invalid_length : leads (exec .hotp (digestState digestT00 20 0x000000A0))
    (fun t => statusIs 0x00000606 t && t.fullcode == 0 && t.codelen == 0) = true := by decide

/-- Vector S-13: ALG 3 is ignored, also in strict mode. -/
theorem test_steamcode_forces_sha1 : leads (exec .steamcode (digestState digestT00 20 0x0000006B))
    (fun t => codeIs ['G', 'G', '5', 'F', '5'] t && t.fullcode == 0x4C93CF18 && t.offset == 0) = true := by decide

/-- Vector S-14. -/
theorem test_steamcode_short_key : leads (exec .steamcode (digestState digestT00 10 0x00000068))
    (fun t => statusIs 0x00000306 t && t.codelen == 0) = true := by decide

/-! ## DECIMAL and STEAM -/

/-- Vector D-02: the leading zero stays. -/
theorem test_decimal_leading_zero : leads (exec .decimal (codeState 0x04E5B397 0x00000090))
    (codeIs ['0', '8', '2', '1', '6', '2', '5', '8', '3']) = true := by decide

/-- Vector D-12. -/
theorem test_decimal_invalid_length : leads (exec .decimal (codeState 0x04E5B397 0x00000050)) (statusIs 0x00000606) = true := by
  decide

/-- Vector S-05: the least significant digit first. -/
theorem test_steam_largest : leads (exec .steam (codeState 0x7FFFFFFF 0x00000060)) (codeIs ['W', 'X', 'P', 'B', 'Q']) = true := by
  decide

/-! ## B32ENC and B32DEC -/

/-- Vector B-04: one padding character. -/
theorem test_b32enc_foob : leads (exec .b32enc (bytesState [0x66, 0x6F, 0x6F, 0x62]))
    (textIs ['M', 'Z', 'X', 'W', '6', 'Y', 'Q', '=']) = true := by decide

/-- Vector B-06: a full group and a partial one. -/
theorem test_b32enc_foobar : leads (exec .b32enc (bytesState [0x66, 0x6F, 0x6F, 0x62, 0x61, 0x72]))
    (textIs ['M', 'Z', 'X', 'W', '6', 'Y', 'T', 'B', 'O', 'I', '=', '=', '=', '=', '=', '=']) = true := by decide

/-- Vector B-23 in lower case. -/
theorem test_b32dec_foob : leads (exec .b32dec (textState ['m', 'z', 'x', 'w', '6', 'y', 'q', '=']))
    (fun t => t.bbufBytes == [0x66, 0x6F, 0x6F, 0x62] && statusIs 0x00000002 t) = true := by decide

/-- Vector B-42: FORMAT_CHAR comes before FORMAT_PADPOS. -/
theorem test_b32dec_char_first : leads (exec .b32dec (textState ['=', '1', '=', '=', '=', '=', '=', '=']))
    (statusIs 0x00001106) = true := by decide

/-! ## The bus -/

/-- Vector C-05. -/
theorem test_ctrl_reserved_bits : leads (step (State.reset.issuing (.write 0x008 .word 0xFFFFFFFF)))
    (fun t => readReg t .ctrl == 0x000001FF) = true := by decide

/-- Vector C-10: clearing ERR clears ERRCODE. -/
theorem test_status_clears_errcode : leads (step ((statusState ⟨false, true, true, false, 0x03⟩).issuing
    (.write 0x010 .word 0x00000004))) (statusIs 0x00000002) = true := by decide

/-- Vector C-23. -/
theorem test_busy_write_dropped : leads (step ((busyState 0x00000000).issuing (.write 0x014 .word 5)))
    (fun t => t.keylen == 0 && statusIs 0x00000009 t && t.response == some (.write .okay)) = true := by decide

/-- Vectors C-14, C-15 and C-16. -/
theorem test_illegal_reads : leads (step (State.reset.issuing (.read 0x042 .word))) (fun t => t.response == some (.read .error 0))
    = true ∧ leads (step (State.reset.issuing (.read 0x080 .word))) (fun t => t.response == some (.read .error 0)) = true
    ∧ leads (step (State.reset.issuing (.read 0x240 .word))) (fun t => t.response == some (.read .error 0)) = true := by decide

/-- Vector C-19: one byte, in its lane. -/
theorem test_narrow_write : leads (step (State.reset.issuing (.write 0x041 .byte 0xFFFFFFAB)))
    (fun t => t.mem == [(0x041, 0xAB)]) = true := by decide

/-- The image of vector D-02 and C-17's lanes. -/
theorem test_code_lanes : leads (exec .decimal (codeState 0x04E5B397 0x00000090))
    (fun t => busRead t 0x030 .word == .read .okay 0x31323830 && busRead t 0x038 .half == .read .okay 0x0033) = true := by decide

/-- Vector C-20. -/
theorem test_irq : leads (exec .nop (codeState 0 0x00000160)) (fun t => t.irq
    && leads (step (t.issuing (.write 0x010 .word 0x00000002))) (fun u => !u.irq)) = true := by decide

/-! ## Witnesses: a state and operands that meet the hypotheses of each statement, clause by clause -/

theorem witness_EveryOtherWordIsRejectedByName :
    256 ≤ (0x00000100 : Word).toNat
      ∧ ((0x00000015 : Word).toNat < 256 ∧ (0x00000015 : Word).toNat ∉ [0x00, 0x01, 0x02, 0x10, 0x11, 0x12, 0x13, 0x14, 0xFF])
      ∧ ∃ i, decodeWord 0x000000FF = .ok i := ⟨by decide, by decide, .sreset, by decide⟩

theorem witness_CommandsAreExactlyOneWord :
    ([] : List Byte).length ≠ 4 ∧ ([0x13, 0x00, 0x00, 0x00, 0x00] : List Byte).length ≠ 4 := by decide

theorem witness_EngineStepRunsTheLatchedCommand :
    let s := busyState 0x00000013
    s.rstN = true ∧ s.status.busy = true ∧ decodeWord s.latched = .ok .hotp ∧ s.schedule = []
      ∧ (s.setSchedule [.engine]).schedule = .engine :: []
      ∧ State.reset.status.busy = false ∧ (State.reset.setSchedule [.engine]).schedule = .engine :: [] := by decide

theorem witness_IllegalWordsCompleteWithIllegalCmd :
    256 ≤ (0x000001FF : Word).toNat
      ∧ (0x00000003 : Word).toNat ∉ [0x00, 0x01, 0x02, 0x10, 0x11, 0x12, 0x13, 0x14, 0xFF]
      ∧ State.reset.status.busy = false
      ∧ let s := (busyState 0x000001FF).setSchedule [.engine]
        s.rstN = true ∧ s.status.busy = true ∧ s.latched = 0x000001FF ∧ s.schedule = [.engine] := by decide

theorem witness_IdleCommandWriteIsAccepted :
    State.reset.status.busy = false ∧ (busyState 0x00000001).status.busy = true ∧ (0x00000100 : Word) ≠ 0x000000FF := by decide

theorem witness_CompletionSucceedsOrOnlyRecordsAnError : Instr.trunc ≠ .sreset ∧ Instr.nop ≠ .sreset := by decide

/-- TRUNC that succeeds is outside the code, text and byte clauses' lists; B32ENC and B32DEC are outside the truncation's. -/
theorem witness_CommandsWriteOnlyTheirListedResults :
    State.reset.params.wellFormed = true ∧ Instr.trunc ≠ .sreset
      ∧ (∃ t, exec .trunc (digestState digestT16 20 0x00000060) = .next t ∧ t.status.err = false)
      ∧ Instr.trunc ∉ [Instr.decimal, .hotp, .steam, .steamcode] ∧ Instr.trunc ∉ [Instr.b32enc, .b32dec]
      ∧ (∃ t, exec .b32enc (bytesState [0x66]) = .next t ∧ t.status.err = false)
      ∧ Instr.b32enc ∉ [Instr.trunc, .hotp, .steamcode] ∧ Instr.b32enc ≠ .b32dec :=
  ⟨by decide, by decide, ⟨_, rfl, by decide⟩, by decide, by decide, ⟨_, rfl, by decide⟩, by decide, by decide⟩

theorem witness_EachErrorCodeComesFromItsCommands :
    Instr.trunc ≠ .sreset ∧ ∃ t, exec .trunc State.reset = .next t ∧ t.status.err = true := ⟨by decide, _, rfl, by decide⟩

theorem witness_InterruptFollowsDoneAndEnable :
    ((busyState 0x00000003).latched ≠ 0x000000FF ∧ ∃ t, completeLatched (busyState 0x00000003) = .next t)
      ∧ ((0x00000002 : Word).getLsbD 1 = true ∧ ∃ t, step (State.reset.issuing (.write 0x010 .word 0x00000002)) = .next t)
      ∧ ((0x000000FF : Word).getLsbD 8 = false ∧ State.reset.status.busy = false
        ∧ ∃ t, step (State.reset.issuing (.write 0x008 .word 0x000000FF)) = .next t)
      ∧ (∃ t, step (State.reset.issuing (.write 0x00C .word 0x00000013)) = .next t)
      ∧ (∃ t, step (State.reset.issuing (.write 0x00C .word 0x000000FF)) = .next t)
      ∧ let s := (State.reset.setPin false).setSchedule [.resetHigh]
        s.rstN = false ∧ s.schedule = .resetHigh :: [] ∧ ∃ t, step s = .next t :=
  ⟨⟨by decide, _, rfl⟩, ⟨by decide, _, rfl⟩, ⟨by decide, by decide, _, rfl⟩, ⟨_, rfl⟩, ⟨_, rfl⟩, by decide, by decide, _, rfl⟩

theorem witness_SresetWriteResetsAtOnce :
    (0x000001FF : Word) ≠ 0x000000FF ∧ (0x00000000 : Word) ≠ 0x000000FF := by decide

theorem witness_HardwareResetGivesTheResetState :
    let u := (busyState 0x00000013).setSchedule [.resetLow]
    let s := (busyState 0x00000013).setPin false
    u.rstN = true ∧ u.status.busy = true ∧ u.schedule = .resetLow :: [] ∧ s.rstN = false ∧ (s.setSchedule [.engine]).schedule = .engine :: []
      ∧ (s.setSchedule [.resetHigh]).schedule = .resetHigh :: [] := by decide

/-- The empty input, one byte (group 0, characters 0 and 7) and a full BBUF. -/
theorem witness_B32encWritesTheBase32Text :
    State.reset.params.wellFormed = true ∧ State.reset.blen.toNat ≤ State.reset.params.bbufSize
      ∧ (bytesState [0x66]).blen.toNat ≤ State.reset.params.bbufSize ∧ 0 < ((bytesState [0x66]).blen.toNat + 4) / 5
      ∧ (State.reset.setBlen 320).blen.toNat ≤ State.reset.params.bbufSize := by decide

theorem witness_B32encRejectsALongBlen :
    (State.reset.setBlen 321).params.bbufSize < (State.reset.setBlen 321).blen.toNat := by decide

theorem witness_B32encCannotOverflowTbuf :
    let s := bytesState [0x66]
    s.params.wellFormed = true ∧ s.blen.toNat ≤ s.params.bbufSize ∧ ∃ t, exec .b32enc s = .next t :=
  ⟨by decide, by decide, _, rfl⟩

/-- A text with a padding run, and the empty text. -/
theorem witness_B32decWritesTheDecodedBytes :
    (let s := textState ['M', 'Y', '=', '=', '=', '=', '=', '='];
      s.params.wellFormed = true ∧ s.tlen.toNat ≤ s.params.tbufSize ∧ LegalBase32 s.textChar s.tlen.toNat 2)
      ∧ LegalBase32 State.reset.textChar State.reset.tlen.toNat 0 := by
  unfold LegalBase32; decide

theorem witness_B32decAcceptsExactlyLegalText :
    State.reset.params.wellFormed = true ∧ State.reset.tlen.toNat ≤ State.reset.params.tbufSize ∧ State.reset.tlen = 0 := by
  decide

/-- One text for each failing check, each at the boundary where the check before it passes. -/
theorem witness_B32decReportsTheFirstFailingCheck :
    (State.reset.setTlen 513).params.tbufSize < (State.reset.setTlen 513).tlen.toNat
      ∧ (textState ['M']).tlen.toNat % 8 ≠ 0
      ∧ (let s := textState ['=', '1', '=', '=', '=', '=', '=', '=']
        s.tlen.toNat ≤ s.params.tbufSize ∧ s.tlen.toNat % 8 = 0
          ∧ ¬ ∀ i < s.tlen.toNat, s.textChar i ∈ base32Alphabet ∨ s.textChar i = 0x3D)
      ∧ (let s := textState ['A', 'B', '=', 'C', 'D', 'E', 'F', 'G']
        (∀ i < s.tlen.toNat, s.textChar i ∈ base32Alphabet ∨ s.textChar i = 0x3D)
          ∧ s.textChar 2 = 0x3D ∧ s.textChar 3 ≠ 0x3D)
      ∧ let s := textState ['A', '=', '=', '=', '=', '=', '=', '=']
        (∀ i < s.tlen.toNat, s.textChar i ∈ base32Alphabet ∨ s.textChar i = 0x3D)
          ∧ (1 ≤ s.tlen.toNat ∧ (∀ i < 1, s.textChar i ≠ 0x3D) ∧ ∀ i, 1 ≤ i → i < s.tlen.toNat → s.textChar i = 0x3D)
          ∧ s.tlen.toNat - 1 ∉ [0, 1, 3, 4, 6] := by decide

theorem witness_B32decCannotOverflowBbuf :
    let s := textState ['M', 'Z', 'X', 'W', '6', 'Y', 'Q', '=']
    s.params.wellFormed = true ∧ s.tlen.toNat ≤ s.params.tbufSize ∧ LegalBase32 s.textChar s.tlen.toNat 7
      ∧ ∃ t, exec .b32dec s = .next t :=
  ⟨by decide, by decide, by unfold LegalBase32; decide, _, rfl⟩

theorem witness_B32decIgnoresLetterCase :
    let s₁ := textState ['M', 'Y', '=', '=', '=', '=', '=', '=']
    let s₂ := textState ['m', 'y', '=', '=', '=', '=', '=', '=']
    s₁.params.wellFormed = true ∧ s₁.tlen.toNat ≤ s₁.params.tbufSize ∧ s₂.params = s₁.params ∧ s₂.tlen = s₁.tlen
      ∧ (∀ i < s₁.tlen.toNat, s₂.textChar i = s₁.textChar i)
      ∧ (∃ t₁, exec .b32dec s₁ = .next t₁ ∧ t₁.status.err = false) ∧ ∃ t₂, exec .b32dec s₂ = .next t₂ :=
  ⟨by decide, by decide, rfl, rfl, by decide, ⟨_, rfl, by decide⟩, _, rfl⟩

theorem witness_B32decUndoesB32enc :
    let s := bytesState [0x66, 0x6F]
    s.params.wellFormed = true ∧ s.blen.toNat ≤ s.params.bbufSize ∧ 0 < s.blen.toNat := by decide

theorem witness_ReencodingNeedsCanonicalText :
    let s := textState ['M', 'Y', '=', '=', '=', '=', '=', '=']
    s.params.wellFormed = true ∧ s.tlen.toNat ≤ s.params.tbufSize ∧ LegalBase32 s.textChar s.tlen.toNat 2
      ∧ ∃ t u, exec .b32dec s = .next t ∧ exec .b32enc t = .next u ∧ u.tlen = s.tlen
        ∧ ∀ i < s.tlen.toNat, u.element .tbuf i = s.element .tbuf i :=
  ⟨by decide, by decide, by unfold LegalBase32; decide, _, _, rfl, rfl, by decide, by decide⟩

/-- The last legal offset of SHA1 in strict mode with the shortest key. -/
theorem witness_TruncWritesOffsetAndFullCode :
    let s := digestState digestT16 16 0x00000068
    (s.ctrl.alg, 20) ∈ algorithms ∧ s.keylen ≠ 0 ∧ (s.ctrl.strict = true → 16 ≤ s.keylen.toNat ∧ s.ctrl.alg = 0)
      ∧ s.selectedOffset 20 + 4 ≤ 20 := by decide

/-- One state for each failing check: ALG 5, KEYLEN 0, KEYLEN 15, ALG 1 in strict mode, MD5 with offset 13. -/
theorem witness_FullCodeReportsTheFirstFailingCheck :
    4 < (digestState digestT00 20 0x00000065).ctrl.alg.toNat
      ∧ (let s := digestState digestT00 0 0x00000064; s.ctrl.alg.toNat ≤ 4 ∧ s.keylen = 0)
      ∧ (let s := digestState digestT00 15 0x00000068
        s.ctrl.alg.toNat ≤ 4 ∧ s.ctrl.strict = true ∧ s.keylen.toNat < 16)
      ∧ (let s := digestState digestT00 16 0x00000069
        s.ctrl.alg.toNat ≤ 4 ∧ s.ctrl.strict = true ∧ 16 ≤ s.keylen.toNat ∧ s.ctrl.alg ≠ 0)
      ∧ let s := digestState digestT54 20 0x00000064
        (s.ctrl.alg, 16) ∈ algorithms ∧ s.keylen ≠ 0 ∧ (s.ctrl.strict = true → 16 ≤ s.keylen.toNat ∧ s.ctrl.alg = 0)
          ∧ 16 < s.selectedOffset 16 + 4 := by decide

/-- MD5 at offset 12 succeeds, at offset 13 it does not; and a digest that differs in a high nibble only. -/
theorem witness_FullCodeReadsOnlyTheSelectedBytes :
    ((4 : BitVec 3), 16) ∈ algorithms ∧ (∃ r, fullCode 4 false 20 (fun _ => 0x0C) = .ok r)
      ∧ fullCode 4 false 20 (fun _ => 0x0D) = .error .digestRange ∧ 13 ≤ (0x0D : Byte).toNat % 16
      ∧ ((0, 20) : BitVec 3 × Nat) ∈ algorithms ∧ (0xF0 : Byte).toNat % 16 = (0x00 : Byte).toNat % 16 :=
  ⟨by decide, ⟨_, rfl⟩, by rfl, by decide, by decide, by decide⟩

theorem witness_DecimalWritesThePaddedDigits :
    (6 ≤ (codeState 0 0x00000060).ctrl.digits.toNat ∧ (codeState 0 0x00000090).ctrl.digits.toNat ≤ 9)
      ∧ (codeState 0 0x00000050).ctrl.digits.toNat < 6 ∧ 9 < (codeState 0 0x000000A0).ctrl.digits.toNat := by decide

theorem witness_SteamWritesFiveCharacters :
    (11881376 : BitVec 31).toNat % 26 ^ 5 = (codeState 0 0x00000060).fullcode.toNat % 26 ^ 5 := by decide

theorem witness_HotpWritesCodeOfTheDigest :
    let s := digestState digestT16 16 0x00000098
    (s.ctrl.alg, 20) ∈ algorithms ∧ s.keylen ≠ 0 ∧ (s.ctrl.strict = true → 16 ≤ s.keylen.toNat ∧ s.ctrl.alg = 0)
      ∧ s.selectedOffset 20 + 4 ≤ 20 ∧ 6 ≤ s.ctrl.digits.toNat ∧ s.ctrl.digits.toNat ≤ 9 := by decide

/-- TRUNC fails; TRUNC and DECIMAL succeed; TRUNC succeeds and DECIMAL fails. -/
theorem witness_HotpIsTruncThenDecimal :
    (∃ t, exec .trunc State.reset = .next t ∧ t.status.err = true)
      ∧ (∃ t, exec .trunc (digestState digestT00 20 0x00000060) = .next t ∧ t.status.err = false
        ∧ ∃ u, exec .decimal t = .next u ∧ u.status.err = false)
      ∧ ∃ t, exec .trunc (digestState digestT00 20 0x00000050) = .next t ∧ t.status.err = false
        ∧ ∃ u, exec .decimal t = .next u ∧ u.status.err = true :=
  ⟨⟨_, rfl, by decide⟩, ⟨_, rfl, by decide, _, rfl, by decide⟩, _, rfl, by decide, _, rfl, by decide⟩

theorem witness_SteamcodeWritesCodeOfTheSha1Digest :
    (let s := digestState digestT00 16 0x00000068;
      s.keylen ≠ 0 ∧ (s.ctrl.strict = true → 16 ≤ s.keylen.toNat))
      ∧ (digestState digestT00 0 0x00000060).keylen = 0
      ∧ (digestState digestT00 15 0x00000068).ctrl.strict = true ∧ (digestState digestT00 15 0x00000068).keylen.toNat < 16 := by
  decide

theorem witness_SteamcodeDependsOnItsOperandsOnly :
    let s₁ := digestState digestT00 20 0x00000060
    let s₂ := digestState digestT00 20 0x00000163
    s₂.keylen = s₁.keylen ∧ s₂.ctrl.strict = s₁.ctrl.strict ∧ (∀ i < 20, s₂.element .digest i = s₁.element .digest i)
      ∧ (∃ t₁, exec .steamcode s₁ = .next t₁ ∧ t₁.status.err = false) ∧ ∃ t₂, exec .steamcode s₂ = .next t₂ :=
  ⟨rfl, rfl, fun _ _ => rfl, ⟨_, rfl, by decide⟩, _, rfl⟩

theorem witness_WrittenInputsMakeTheDrawIrrelevant :
    inputsWritten .hotp (digestState digestT00 20 0x00000060) = true
      ∧ (∃ t, exec .hotp (digestState digestT00 20 0x00000060) = .next t)
      ∧ inputsWritten .b32enc (bytesState [0x66]) = true ∧ inputsWritten .b32dec (textState ['M']) = true :=
  ⟨by decide, ⟨_, rfl⟩, by decide, by decide⟩

/-- Misaligned, a register in another size, past a window's end, unmapped; and the last legal accesses of two windows. -/
theorem witness_IllegalTransactionsChangeNothing :
    let p := State.reset.params
    p.wellFormed = true ∧ ¬ LegalAccess p 0x042 4 ∧ ¬ LegalAccess p 0x010 2 ∧ ¬ LegalAccess p 0x080 4 ∧ ¬ LegalAccess p 0x240 1
      ∧ ¬ LegalAccess p 0x600 4 ∧ LegalAccess p 0x02C 4 ∧ LegalAccess p 0x23F 1 ∧ LegalAccess p 0x5FC 4 := by
  unfold LegalAccess; decide

theorem witness_WindowReadsUseLittleEndianLanes :
    State.reset.params.wellFormed = true ∧ (Window.code.base + 14) % Size.half.bytes = 0
      ∧ 14 + Size.half.bytes ≤ Window.code.size State.reset.params ∧ (Window.tbuf.base + 508) % Size.word.bytes = 0
      ∧ 508 + Size.word.bytes ≤ Window.tbuf.size State.reset.params := by decide

theorem witness_IdleWindowWritesStoreTheirLanes :
    State.reset.params.wellFormed = true ∧ Window.bbuf ≠ .code ∧ (Window.bbuf.base + 316) % Size.word.bytes = 0
      ∧ 316 + Size.word.bytes ≤ Window.bbuf.size State.reset.params ∧ State.reset.status.busy = false := by decide

theorem witness_IdleRegisterWritesStoreTheirBits : State.reset.status.busy = false := by decide

theorem witness_RegisterReadsReturnTheirFields : (State.reset.setCtrl ⟨7, true, 15, true⟩).params.wellFormed = true := by decide

theorem witness_ParamsReadsTheBufferSizes :
    Params.wellFormed ⟨765, 1224⟩ = true ∧ State.reset.params = Params.default := by decide

theorem witness_ReadOnlyWritesAreIgnored :
    LegalAccess State.reset.params 0x02C 4 ∧ (0x02C : Offset) ∈ [(0x000 : Offset), 0x004, 0x018, 0x020, 0x02C]
      ∧ LegalAccess State.reset.params 0x03F 1 ∧ 0x030 ≤ (0x03F : Offset).toNat ∧ (0x03F : Offset).toNat < 0x040 := by
  unfold LegalAccess; decide

/-- An input register, the first and the last window byte, CMD, STATUS, and a read-only location. -/
theorem witness_BusyWritesAreDropped :
    let s := busyState 0x00000013
    s.params.wellFormed = true ∧ s.status.busy = true ∧ LegalAccess s.params 0x014 4
      ∧ (0x014 : Offset) ∈ [(0x008 : Offset), 0x00C, 0x014, 0x01C, 0x024, 0x028]
      ∧ LegalAccess s.params 0x040 1 ∧ LegalAccess s.params 0x5FF 1 ∧ 0x040 ≤ (0x5FF : Offset).toNat
      ∧ LegalAccess s.params 0x00C 4 ∧ (0x000001FF : Word) ≠ 0x000000FF ∧ LegalAccess s.params 0x010 4
      ∧ LegalAccess s.params 0x030 2 ∧ (0x030 : Offset).toNat < 0x040 := by
  unfold LegalAccess; decide

theorem witness_StatusWritesClearWhereOne :
    (0x00000004 : Word).getLsbD 2 = true ∧ (0x0000000A : Word).getLsbD 2 = false := by decide

theorem witness_ReservedBitsReadZeroAndIgnoreWrites :
    (0x12345678 : Word) &&& BitVec.ofNat 32 0x000001FF = 0x00000078 &&& BitVec.ofNat 32 0x000001FF
      ∧ 256 ≤ (0x00000100 : Word).toNat := by decide

theorem witness_HostCannotChangeAPendingCommand :
    let s := ((busyState 0x00000001).setHost [.txn (.write 0x100 .word 0), .wait]).setSchedule [.host]
    s.rstN = true ∧ s.status.busy = true ∧ s.schedule = .host :: [] ∧ s.host = .txn (.write 0x100 .word 0) :: [.wait]
      ∧ HostOp.txn (.write 0x100 .word 0) ≠ .txn (.write 0x00C .word 0x000000FF)
      ∧ HostOp.wait ≠ .txn (.write 0x00C .word 0x000000FF) := by decide

/-- BUSY = 1, and BUSY = 0 with the other STATUS fields set. -/
theorem witness_WaitPollsUntilIdle :
    let s := ((busyState 0x00000001).setHost [.wait]).setSchedule [.host]
    let u := ((statusState ⟨false, true, true, true, 0x05⟩).setHost [.wait]).setSchedule [.host]
    (s.rstN = true ∧ s.schedule = .host :: [] ∧ s.host = .wait :: [] ∧ s.status.busy = true)
      ∧ u.rstN = true ∧ u.schedule = .host :: [] ∧ u.host = .wait :: [] ∧ u.status.busy = false := by decide

/-- A state with a command pending, an input written and an interrupt enabled meets the invariant, and its step goes on. -/
theorem witness_StepKeepsTheInvariant :
    let s := accept 0x00000001 ((bytesState [0x66]).setCtrl ⟨0, false, 6, true⟩)
    Inv s ∧ ∃ t, step s = .next t :=
  ⟨⟨by decide, by decide, by decide, by decide, by decide, by decide, by decide⟩, _, rfl⟩

theorem witness_OnlyATransactionInResetStops :
    let s := ((State.reset.setPin false).setHost [.wait]).setSchedule [.host]
    step s = .fault .transactionDuringReset ∧ s.rstN = false ∧ s.host ≠ [] := ⟨rfl, by decide, by decide⟩

theorem witness_QuietHostRunsSafely :
    let s := ((State.reset.setPin false).setHost (HostProgram.run .hotp)).setSchedule [.engine, .resetHigh, .host, .engine]
    quietInReset s.rstN s.schedule = true := by decide

theorem witness_EveryRunEnds :
    let s := (State.reset.setHost (HostProgram.run .hotp)).setSchedule [.host, .host, .engine]
    s.rstN = true ∧ pinFree s.schedule = true := by decide

/-- A reset with the host quiet in it, and the state in reset with nothing scheduled. -/
theorem witness_QuietStepsStayQuiet :
    let s := ((busyState 0x00000013).setHost [.wait]).setSchedule [.resetLow, .engine, .resetHigh, .host]
    quietInReset s.rstN s.schedule = true ∧ quietInReset (State.reset.setPin false).rstN [] = true := by decide

end Sys2Proof.Tests
end

section
/-! PROOFS. 10_state.md: what each operation does to the invariant, the registers at their offsets, and the statements
settled by them. -/

namespace Sys2Proof.Machine

/-! ## STATUS stays consistent -/

/-- Consistency of STATUS, clause by clause. -/
theorem status_consistent_iff (st : Status) : st.consistent = true ↔
    (st.err = true → st.errcode ∈ errorKinds.map errorCode) ∧ (st.err = false → st.errcode = 0x00)
      ∧ (st.busy = true → st.done = false ∧ st.err = false) := by
  obtain ⟨busy, done, err, wovr, errcode⟩ := st
  cases err <;> cases busy <;> simp [Status.consistent]

/-- The table of codes lists every error's code (spec/60_exceptions.md R85). -/
theorem errorCode_mem (e : ErrorKind) : errorCode e ∈ errorKinds.map errorCode := by
  cases e <;> decide

theorem consistent_reset : Status.reset.consistent = true := rfl

theorem consistent_acceptStatus (st : Status) : (acceptStatus st).consistent = true := rfl

theorem consistent_successStatus (st : Status) : (successStatus st).consistent = true := rfl

theorem consistent_errorStatus (e : ErrorKind) (st : Status) : (errorStatus e st).consistent = true := by
  simpa [status_consistent_iff, errorStatus] using errorCode_mem e

theorem consistent_overrunStatus {st : Status} (h : st.consistent = true) : (overrunStatus st).consistent = true := h

/-- A STATUS write clears the flag and the code together, or keeps both. -/
theorem consistent_clearStatus (v : Word) {st : Status} (h : st.consistent = true) :
    (clearStatus v st).consistent = true := by
  rw [status_consistent_iff] at h ⊢
  obtain ⟨hcode, hzero, hbusy⟩ := h
  have hidle : (clearStatus v st).busy = true → (clearStatus v st).done = false ∧ (clearStatus v st).err = false :=
    fun hb => by simp [clearStatus, hbusy hb]
  cases hv : v.getLsbD 2 with
  | true =>
    have herr : (clearStatus v st).err = false := by simp only [clearStatus, hv, Bool.not_true, Bool.and_false]
    have herrcode : (clearStatus v st).errcode = 0x00 := if_pos hv
    exact ⟨fun h => absurd (herr.symm.trans h) (by decide), fun _ => herrcode, hidle⟩
  | false =>
    have herr : (clearStatus v st).err = st.err := by simp only [clearStatus, hv, Bool.not_false, Bool.and_true]
    have herrcode : (clearStatus v st).errcode = st.errcode := if_neg (Bool.eq_false_iff.1 hv)
    exact ⟨by rwa [herr, herrcode], by rwa [herr, herrcode], hidle⟩

/-! ## CODE agrees with CODELEN -/

theorem codeConsistent_reset : codeConsistent (Vector.replicate 16 0x00) 0 = true := by decide

/-- Five Steam characters and zeros behind agree with length 5, 6 to 9 digits with their number. -/
theorem codeConsistent_ofFn (f : Fin 16 → Byte) (n : BitVec 5) (hz : ∀ i : Fin 16, n.toNat ≤ i.val → f i = 0x00)
    (hc : (n.toNat = 5 ∧ ∀ i : Fin 16, i.val < 5 → isSteamChar (f i) = true)
      ∨ (6 ≤ n.toNat ∧ n.toNat ≤ 9 ∧ ∀ i : Fin 16, i.val < n.toNat → isDigitChar (f i) = true)) :
    codeConsistent (Vector.ofFn f) n = true := by
  have hdrop : ((Vector.ofFn f).toList.drop n.toNat).all (· == 0x00) = true := by
    rw [List.all_eq_true]
    intro c hmem
    obtain ⟨i, hi, rfl⟩ := List.mem_iff_getElem.1 hmem
    simp only [List.length_drop, Vector.length_toList] at hi
    simpa using hz ⟨n.toNat + i, by omega⟩ (by simp)
  have htake : ∀ P : Byte → Bool, (∀ i : Fin 16, i.val < n.toNat → P (f i) = true) →
      ((Vector.ofFn f).toList.take n.toNat).all P = true := by
    intro P hP
    rw [List.all_eq_true]
    intro c hmem
    obtain ⟨i, hi, rfl⟩ := List.mem_iff_getElem.1 hmem
    simp only [List.length_take, Vector.length_toList] at hi
    simpa using hP ⟨i, by omega⟩ (by simp; omega)
  simp only [codeConsistent, hdrop, Bool.true_and, Bool.or_eq_true, Bool.and_eq_true, decide_eq_true_eq, beq_iff_eq]
  rcases hc with ⟨h5, hs⟩ | ⟨h6, h9, hd⟩
  · exact .inl (.inr ⟨h5, htake _ (by rwa [h5])⟩)
  · exact .inr ⟨⟨h6, h9⟩, htake _ hd⟩

theorem isSteamChar_getD (k : Nat) (h : k < 26) : isSteamChar (steamAlphabet.getD k 0x00) = true := by
  revert k; decide

theorem isDigitChar_add (k : Nat) (h : k < 10) : isDigitChar (BitVec.ofNat 8 (0x30 + k)) = true := by
  revert k; decide

/-- STEAM's and STEAMCODE's result (spec/41_truncation.md R78). -/
theorem codeConsistent_steamChars (fc : BitVec 31) : codeConsistent (steamChars fc) 5 = true := by
  have h5 : (5 : BitVec 5).toNat = 5 := rfl
  refine codeConsistent_ofFn _ 5 (fun i hi => ?_) (.inl ⟨h5, fun i hi => ?_⟩)
  · exact List.getD_eq_default _ _ (by rw [length_steamDigits, ← h5]; exact hi)
  · rw [getD_steamDigits 5 _ _ hi]
    exact isSteamChar_getD _ (Nat.mod_lt _ (by decide))

/-- DECIMAL's and HOTP's result (spec/41_truncation.md R75). -/
theorem codeConsistent_decimalChars {fc : BitVec 31} {d : BitVec 4} {c : Vector Byte 16}
    (h : decimalChars fc d = .ok c) : codeConsistent c (d.setWidth 5) = true := by
  unfold decimalChars at h
  split_ifs at h with hd
  cases h
  have hn : (d.setWidth 5).toNat = d.toNat := by rw [BitVec.toNat_setWidth]; omega
  refine codeConsistent_ofFn _ _ (fun i hi => ?_) (.inr ⟨by omega, by omega, fun i hi => ?_⟩)
  · rw [if_neg (by omega)]
  · rw [if_pos (by omega)]
    exact isDigitChar_add _ (Nat.mod_lt _ (by decide))

/-! ## Memory stays within its windows -/

theorem memoryInWindows_iff (p : Params) (m : Memory) : memoryInWindows p m = true ↔
    ∀ c ∈ m, ∃ w : Window, w ≠ .code ∧ w.holds p c.1 = true := by
  have hw : ∀ a : Nat, (Window.digest.holds p a || Window.bbuf.holds p a || Window.tbuf.holds p a) = true ↔
      ∃ w : Window, w ≠ .code ∧ w.holds p a = true := by
    intro a
    simp only [Bool.or_eq_true]
    constructor
    · rintro ((h | h) | h)
      · exact ⟨.digest, by decide, h⟩
      · exact ⟨.bbuf, by decide, h⟩
      · exact ⟨.tbuf, by decide, h⟩
    · rintro ⟨w, hne, h⟩
      cases w with
      | code => exact absurd rfl hne
      | digest => exact .inl (.inl h)
      | bbuf => exact .inl (.inr h)
      | tbuf => exact .inr h
  simp only [memoryInWindows, List.all_eq_true, hw]

/-- A write inside one RAM window keeps memory within the windows. -/
theorem memoryInWindows_setList {p : Params} {m : Memory} {w : Window} {i : Nat} {bs : List Byte} (hw : w ≠ .code)
    (hi : i + bs.length ≤ w.size p) (h : memoryInWindows p m = true) :
    memoryInWindows p (m.setList (w.base + i) bs) = true := by
  rw [memoryInWindows_iff] at h ⊢
  intro c hc
  rcases mem_setList bs m _ c hc with hin | hold
  · exact ⟨w, hw, by simp only [Window.holds, Bool.and_eq_true, decide_eq_true_eq]; omega⟩
  · exact h c hold

/-- Decoded bytes are at most five eighths of the text (spec/40_base32.md R67). -/
theorem length_of_base32Decode {text out : List Byte} (h : base32Decode text = .ok out) :
    out.length ≤ 5 * text.length / 8 := by
  simp only [base32Decode] at h
  split_ifs at h
  cases h
  have htake := (List.takeWhile_prefix (l := text.map upcase) (· != padChar)).length_le
  rw [List.length_map] at htake
  rw [length_decodeData]
  omega

/-! ## What each operation does to the invariant -/

/-- With `rst_n` high the clause about reset asks nothing. -/
theorem inReset_of_high {s : State} {P : Prop} (hr : s.rstN = true) (h : s.rstN = false) : P :=
  absurd (hr.symm.trans h) (by decide)

/-- The invariant does not speak of the model's own queues and of the last response. -/
theorem inv_setSchedule {s : State} (ts : List Turn) (hs : Inv s) : Inv (s.setSchedule ts) := { hs with }

theorem inv_setHost_respond {s : State} (ops : List HostOp) (r : Response) (hs : Inv s) :
    Inv ((s.setHost ops).respond r) := { hs with }

/-- Registers at their reset values meet the invariant, at either level of the pin. -/
theorem inv_softReset {s : State} (hp : s.params.wellFormed = true) (hm : s.mem.wf = true)
    (hw : memoryInWindows s.params s.mem = true) : Inv (softReset s) where
  sizes := hp
  canonical := hm
  windows := hw
  status := consistent_reset
  code := codeConsistent_reset
  pending := nofun
  inReset _ := ⟨rfl, rfl⟩

theorem inv_assertReset {s : State} (hs : Inv s) : Inv (assertReset s) :=
  inv_softReset (s := s.setPin false) hs.sizes hs.canonical hs.windows

theorem inv_releaseReset {s : State} (hs : Inv s) : Inv (releaseReset s) :=
  inv_softReset (s := { s with rstN := true, mem := [], draw := s.draw + 1 }) hs.sizes wf_nil rfl

/-- A write to RAM inside one window. -/
theorem inv_writeRam {s : State} {w : Window} {i : Nat} {bs : List Byte} (hs : Inv s) (hw : w ≠ .code)
    (hi : i + bs.length ≤ w.size s.params) : Inv (s.writeRam (w.base + i) bs) :=
  { hs with
    canonical := wf_setList bs s.mem _ hs.canonical
    windows := memoryInWindows_setList hw hi hs.windows }

/-- Every effect a host's write can have. -/
theorem inv_of_writeEffect {s t : State} (hs : Inv s) (hr : s.rstN = true) (h : WriteEffect s t) : Inv t := by
  cases h with
  | nothing => exact hs
  | dropped hb => exact { hs with status := consistent_overrunStatus hs.status }
  | status v =>
    exact { hs with status := consistent_clearStatus v hs.status, inReset := fun h => inReset_of_high hr h }
  | accepted w hb hw =>
    exact { hs with
      status := consistent_acceptStatus s.status
      pending := fun _ => hw
      inReset := fun h => inReset_of_high hr h }
  | reset => exact inv_softReset hs.sizes hs.canonical hs.windows
  | ctrl c hb => exact { hs with inReset := fun h => inReset_of_high hr h }
  | keylen v hb => exact { hs with }
  | fullcode v hb => exact { hs with }
  | blen v hb => exact { hs with }
  | tlen v hb => exact { hs with }
  | window w i bs hb hw hi => exact inv_writeRam hs hw hi

/-- B32ENC's text fits TBUF (spec/40_base32.md R63). -/
theorem encodedLength_le_tbufSize {p : Params} (hp : p.wellFormed = true) {n : Nat} (hn : n ≤ p.bbufSize) :
    8 * ((n + 4) / 5) ≤ p.tbufSize := by
  obtain ⟨h5, _, _, ht⟩ := (wellFormed_iff p).1 hp
  omega

/-- B32DEC's bytes fit BBUF (spec/40_base32.md R67). -/
theorem decodedLength_le_bbufSize {p : Params} (hp : p.wellFormed = true) {n : Nat} (hn : n ≤ p.tbufSize) :
    5 * n / 8 ≤ p.bbufSize := by
  obtain ⟨h5, _, _, ht⟩ := (wellFormed_iff p).1 hp
  omega

/-- What a successful command commits, before its completion. -/
theorem inv_of_commits {s u : State} {i : Instr} (hs : Inv s) (h : Commits s i u) : Inv u := by
  cases h with
  | nop => exact hs
  | b32enc hl =>
    have hfit : 0 + (base32Encode s.bbufBytes).length ≤ Window.tbuf.size s.params := by
      rw [length_base32Encode, length_bbufBytes, Nat.zero_add]
      exact encodedLength_le_tbufSize hs.sizes hl
    exact { inv_writeRam hs (by decide : Window.tbuf ≠ .code) hfit with }
  | b32dec out hl ho =>
    have hfit : 0 + out.length ≤ Window.bbuf.size s.params := by
      have hlen := length_of_base32Decode ho
      rw [length_tbufText] at hlen
      rw [Nat.zero_add]
      exact hlen.trans (decodedLength_le_bbufSize hs.sizes hl)
    exact { inv_writeRam hs (by decide : Window.bbuf ≠ .code) hfit with }
  | trunc off fc hf => exact { hs with }
  | decimal c hc => exact { hs with code := codeConsistent_decimalChars hc }
  | steam => exact { hs with code := codeConsistent_steamChars s.fullcode }
  | hotp off fc c hf hc => exact { hs with code := codeConsistent_decimalChars hc }
  | steamcode off fc hf => exact { hs with code := codeConsistent_steamChars fc }

theorem inv_succeed {s : State} (hs : Inv s) (hr : s.rstN = true) : Inv (succeed s) :=
  { hs with
    status := consistent_successStatus s.status
    pending := nofun
    inReset := fun h => inReset_of_high hr h }

theorem inv_raise {s : State} (e : ErrorKind) (hs : Inv s) (hr : s.rstN = true) : Inv (raise e s) :=
  { hs with
    status := consistent_errorStatus e s.status
    pending := nofun
    inReset := fun h => inReset_of_high hr h }

theorem commits_rstN {s u : State} {i : Instr} (h : Commits s i u) : u.rstN = s.rstN := by
  cases h <;> rfl

theorem inv_of_exec {s t : State} {i : Instr} (hs : Inv s) (hr : s.rstN = true) (h : exec i s = .next t) : Inv t := by
  by_cases hi : i = .sreset
  · subst hi
    cases h
    exact inv_softReset hs.sizes hs.canonical hs.windows
  · rcases exec_cases hi h with ⟨u, hc, rfl⟩ | ⟨e, _, rfl⟩
    · exact inv_succeed (inv_of_commits hs hc) ((commits_rstN hc).trans hr)
    · exact inv_raise e hs hr

theorem inv_of_completeLatched {s t : State} (hs : Inv s) (hr : s.rstN = true) (h : completeLatched s = .next t) :
    Inv t := by
  rcases completeLatched_cases s with ⟨i, _, hx⟩ | hx <;> rw [hx] at h
  · exact inv_of_exec hs hr h
  · cases h
    exact inv_raise .illegalCmd hs hr

theorem inv_of_stepEffect {s t : State} (hs : Inv s) (h : StepEffect s t) : Inv t := by
  cases h with
  | idle => exact hs
  | completed t hr hb h => exact inv_of_completeLatched hs hr h
  | host rest r t hr h => exact inv_of_writeEffect (inv_setHost_respond rest r hs) hr h
  | resetLow hr => exact inv_assertReset hs
  | resetHigh hr => exact inv_releaseReset hs

/-! ## Registers at their offsets -/

/-- Every register's offset is a multiple of 4 below 0x030 (spec/20_memory.md R35). -/
theorem regAt_legal {a : Nat} {r : Reg} (h : regAt a = some r) : a < 0x030 ∧ a % 4 = 0 := by
  by_contra hbad
  have hne : ∀ k : Nat, k < 0x030 → k % 4 = 0 → a ≠ k := by
    rintro k hlt hal rfl
    exact hbad ⟨hlt, hal⟩
  simp [regAt, hne] at h

/-- A 4-byte access at a register's offset addresses that register (spec/20_memory.md R35, R38). -/
theorem target_of_regAt (p : Params) {a : Nat} {r : Reg} (h : regAt a = some r) : target p a 4 = some (.reg r) := by
  obtain ⟨hlt, hal⟩ := regAt_legal h
  simp [target, hlt, hal, h]

/-- The host's read of a register. -/
theorem step_read_reg (s : State) {a : Offset} (r : Reg) (h : regAt a.toNat = some r) :
    step (s.issuing (.read a .word)) = .next (s.answered (.read .okay (readReg s r))) :=
  step_read s a .word (.reg r) (target_of_regAt s.params h)

/-- The host's read of a register, by the register's value as a number. -/
theorem step_read_reg_toNat (s : State) {a : Offset} (r : Reg) (h : regAt a.toNat = some r) {v : Nat}
    (hv : (readReg s r).toNat = v) :
    step (s.issuing (.read a .word)) = .next (s.answered (.read .okay (BitVec.ofNat 32 v))) := by
  rw [step_read_reg s r h, ← hv, BitVec.ofNat_toNat, BitVec.setWidth_eq]

/-- The host's write of a register. -/
theorem step_write_reg (s : State) (v : Word) {a : Offset} (r : Reg) (h : regAt a.toNat = some r) :
    step (s.issuing (.write a .word v)) = writeReg v (s.answered (.write .okay)) r :=
  step_write s a .word v (.reg r) (target_of_regAt s.params h)

/-- PARAMS as a number (spec/10_state.md R19). -/
theorem toNat_readReg_params (s : State) :
    (readReg s .params).toNat = s.params.bbufSize % 65536 + 65536 * (s.params.tbufSize % 65536) := by
  simp only [readReg, toNat_append_eq, BitVec.toNat_ofNat]
  omega

/-- Legal sizes fit PARAMS' two halves. -/
theorem toNat_readReg_params_of_wellFormed {s : State} (h : s.params.wellFormed = true) :
    (readReg s .params).toNat = s.params.bbufSize + 65536 * s.params.tbufSize
      ∧ s.params.bbufSize < 65536 ∧ s.params.tbufSize < 65536 := by
  obtain ⟨_, _, hle, ht⟩ := (wellFormed_iff s.params).1 h
  rw [toNat_readReg_params]
  omega

/-- The bits of a word from bit `k` on, as a number cut to their width. -/
theorem extractLsb'_eq_ofNat (v : Word) (k n : Nat) : v.extractLsb' k n = BitVec.ofNat n (v.toNat / 2 ^ k) := by
  rw [BitVec.extractLsb', Nat.shiftRight_eq_div_pow]

/-- CTRL's fields as a write gives them (spec/10_state.md R20). -/
theorem ctrlOfWord_eq (v : Word) :
    ctrlOfWord v = ⟨BitVec.ofNat 3 v.toNat, v.getLsbD 3, BitVec.ofNat 4 (v.toNat / 16), v.getLsbD 8⟩ := by
  simp [ctrlOfWord, extractLsb'_eq_ofNat]

/-- The low bits of a written word, where the register keeps no more of them. -/
theorem extractLsb'_zero_eq_ofNat (v : Word) (n : Nat) : v.extractLsb' 0 n = BitVec.ofNat n v.toNat := by
  rw [extractLsb'_eq_ofNat, pow_zero, Nat.div_one]

/-- CODE after a reset. -/
theorem codeByte_of_zero {s : State} (h : s.code = Vector.replicate 16 0x00) (i : Nat) : s.codeByte i = 0x00 := by
  rw [codeByte_ofFn s (fun _ => 0x00) (h.trans (by decide))]
  split_ifs <;> rfl

/-- Every register at its reset value (spec/10_state.md R32). -/
theorem registersReset_softReset (s : State) : RegistersReset (softReset s) :=
  ⟨rfl, rfl, toNat_readReg_params _, (by decide : ctrlWord Ctrl.reset = 0x00000060),
    (by decide : statusWord Status.reset = 0x00000000), rfl, rfl, rfl, rfl, rfl, rfl, codeByte_of_zero rfl, rfl, rfl⟩

/-- A STATUS write's flag stays set exactly where it was set and the write has 0. -/
theorem and_not_eq_true_iff (flag bit : Bool) : (flag && !bit) = true ↔ flag = true ∧ bit = false := by simp

end Sys2Proof.Machine

open Sys2Proof Sys2Proof.Machine

/-- Settles O50: each effect of a step keeps every clause of the invariant. -/
theorem stepKeepsTheInvariant : Obligations.StepKeepsTheInvariant := by
  intro s t hs h
  rcases step_cases s with ⟨u, ts, hu, he, _⟩ | ⟨hf, _⟩
  · obtain rfl : u = t := by rw [hu] at h; injection h
    exact inv_of_stepEffect (inv_setSchedule ts hs) he
  · rw [hf] at h
    cases h

/-- Settles O41, by each register's value as a number. -/
theorem registerReadsReturnTheirFields : Obligations.RegisterReadsReturnTheirFields := by
  intro s hp
  exact ⟨step_read_reg s .id rfl, step_read_reg s .version rfl,
    step_read_reg_toNat s .ctrl rfl (toNat_ctrlWord s.ctrl),
    step_read_reg s .cmd rfl,
    step_read_reg_toNat s .status rfl (toNat_statusWord s.status),
    step_read_reg_toNat s .keylen rfl rfl,
    step_read_reg_toNat s .offset rfl (BitVec.toNat_setWidth_of_le (by decide)),
    step_read_reg_toNat s .fullcode rfl (BitVec.toNat_setWidth_of_le (by decide)),
    step_read_reg_toNat s .codelen rfl (BitVec.toNat_setWidth_of_le (by decide)),
    step_read_reg_toNat s .blen rfl (BitVec.toNat_setWidth_of_le (by decide)),
    step_read_reg_toNat s .tlen rfl (BitVec.toNat_setWidth_of_le (by decide)),
    step_read_reg_toNat s .params rfl (toNat_readReg_params_of_wellFormed hp).1⟩

/-- Settles O16: the state after hardware reset is its own soft reset, and its memory lists no byte. -/
theorem resetStateHoldsTheResetValues : Obligations.ResetStateHoldsTheResetValues :=
  ⟨registersReset_softReset State.reset, rfl, rfl, fun _ => rfl⟩

/-- Settles O40: an idle write stores its bits on top of the OKAY response. -/
theorem idleRegisterWritesStoreTheirBits : Obligations.IdleRegisterWritesStoreTheirBits := by
  intro s v hb
  have idle : ∀ stored : State, storeInput stored (s.answered (.write .okay)) = stored := fun stored =>
    storeInput_idle stored _ hb
  refine ⟨?_, ?_, ?_, ?_, ?_⟩ <;> rw [step_write_reg s v _ rfl, writeReg, idle]
  · rw [ctrlOfWord_eq]; rfl
  · rfl
  · rw [extractLsb'_zero_eq_ofNat]; rfl
  · rw [extractLsb'_zero_eq_ofNat]; rfl
  · rw [extractLsb'_zero_eq_ofNat]; rfl

/-- Settles O42: the two registers are constants, and a write to either leaves the answered state. -/
theorem identificationIsConstant : Obligations.IdentificationIsConstant := fun s v =>
  ⟨step_read_reg s .id rfl, step_read_reg s .version rfl, step_write_reg s v .id rfl, step_write_reg s v .version rfl⟩

/-- Settles O43: PARAMS is the two sizes as one number, and legal sizes fit its halves. -/
theorem paramsReadsTheBufferSizes : Obligations.ParamsReadsTheBufferSizes := by
  intro s v
  refine ⟨fun hp => ⟨readReg s .params, step_read_reg s .params rfl, ?_, ?_⟩, fun hd => ?_, step_write_reg s v .params rfl⟩
  · obtain ⟨hval, hlo, hhi⟩ := toNat_readReg_params_of_wellFormed hp
    rw [extractLsb'_eq_ofNat, BitVec.toNat_ofNat, hval]
    omega
  · obtain ⟨hval, hlo, hhi⟩ := toNat_readReg_params_of_wellFormed hp
    rw [extractLsb'_eq_ofNat, BitVec.toNat_ofNat, hval]
    omega
  · refine step_read_reg_toNat s .params rfl (v := 0x02000140) ?_
    rw [toNat_readReg_params, hd]
    rfl

/-- Settles O46: the step is the acknowledgement on top of the OKAY response. -/
theorem statusWritesClearWhereOne : Obligations.StatusWritesClearWhereOne := fun s v =>
  ⟨acknowledge v (s.answered (.write .okay)), step_write_reg s v .status rfl, rfl, rfl, and_not_eq_true_iff _ _,
    and_not_eq_true_iff _ _, and_not_eq_true_iff _ _, fun h => if_pos h, fun h => if_neg (Bool.eq_false_iff.1 h)⟩

/-- Settles O51: the state after hardware reset is its own soft reset. -/
theorem resetMeetsTheInvariant : Obligations.ResetMeetsTheInvariant :=
  inv_softReset (s := State.reset) (by decide) wf_nil rfl

end

section
/-! PROOFS. 20_memory.md: the access at an offset, what a write leaves as it was, the lanes of a window access, the
reserved bits by their masks, the host's turn while BUSY, and the statements settled by them. -/

namespace Sys2Proof.Machine

/-! ## What an access addresses -/

theorem eq_word_of_bytes {n : Size} (h : n.bytes = 4) : n = .word := by
  cases n with
  | byte => exact absurd h (by decide)
  | half => exact absurd h (by decide)
  | word => rfl

/-- A window's elements have 12-bit offsets. -/
theorem toNat_windowOffset {p : Params} {w : Window} {i : Nat} (hp : p.wellFormed = true) (hi : i < w.size p) :
    (BitVec.ofNat 12 (w.base + i)).toNat = w.base + i := by
  obtain ⟨-, -, hle, ht⟩ := (wellFormed_iff p).1 hp
  rw [BitVec.toNat_ofNat]
  cases w <;> simp only [Window.base, Window.size] at hi ⊢ <;> omega

/-- A legal access to a window's elements, by its 12-bit offset. -/
theorem target_windowOffset {p : Params} {w : Window} {i : Nat} {n : Size} (hp : p.wellFormed = true)
    (ha : (w.base + i) % n.bytes = 0) (hi : i + n.bytes ≤ w.size p) :
    target p (BitVec.ofNat 12 (w.base + i)).toNat n.bytes = some (.window w i) := by
  have hn := size_pos n
  rw [toNat_windowOffset hp (by omega)]
  exact target_window p w i n.bytes hp hn ha hi

/-- The map's first window starts at 0x030 (spec/20_memory.md R35). -/
theorem le_window_base (w : Window) : 0x030 ≤ w.base := by cases w <;> decide

/-- A legal access is a 4-byte register access or lies in one window (spec/20_memory.md R35, R38, R39). -/
theorem legalAccess_cases {p : Params} {a n : Nat} (h : LegalAccess p a n) :
    (a < 0x030 ∧ n = 4) ∨ ∃ w : Window, w.base ≤ a ∧ a + n ≤ w.base + w.size p := by
  obtain ⟨-, hreg | ⟨w, hw, hlo, hend⟩⟩ := h
  · exact .inl hreg
  · simp only [List.mem_cons, List.not_mem_nil, or_false] at hw
    rcases hw with rfl | rfl | rfl | rfl
    · exact .inr ⟨.code, hlo, hend⟩
    · exact .inr ⟨.digest, hlo, hend⟩
    · exact .inr ⟨.bbuf, hlo, hend⟩
    · exact .inr ⟨.tbuf, hlo, hend⟩

/-- A legal access below the windows is a 4-byte one (spec/20_memory.md R38). -/
theorem size_eq_word_of_below {p : Params} {a : Nat} {n : Size} (h : LegalAccess p a n.bytes) (ha : a < 0x030) :
    n = .word := by
  rcases legalAccess_cases h with ⟨-, hn⟩ | ⟨w, hlo, -⟩
  · exact eq_word_of_bytes hn
  · have hbase := le_window_base w
    omega

/-- A legal access from CODE's offsets addresses CODE, whatever the sizes (spec/20_memory.md R35). -/
theorem target_code {p : Params} {a n : Nat} (h : LegalAccess p a n) (hlo : 0x030 ≤ a) (hhi : a < 0x040) :
    target p a n = some (.window .code (a - 0x030)) := by
  have hin : Window.code.holds p a = true := by simp [Window.holds, Window.base, Window.size, hlo, hhi]
  have hw : windowAt p a = some .code := List.find?_cons_of_pos hin
  have hfit : a + n ≤ Window.code.base + Window.code.size p := by
    rcases legalAccess_cases h with ⟨hlt, -⟩ | ⟨w, hbase, hend⟩
    · omega
    · cases w with
      | code => exact hend
      | digest => exact absurd hhi (Nat.not_lt.2 hbase)
      | bbuf => exact absurd (hbase.trans_lt hhi) (by decide)
      | tbuf => exact absurd (hbase.trans_lt hhi) (by decide)
  simp only [target, h.1, ne_eq, not_true_eq_false, if_false, Nat.not_lt.2 hlo, hw]
  exact if_pos hfit

/-! ## What a write leaves as it was -/

theorem writeEffect_response {s t : State} (h : WriteEffect s t) : t.response = s.response := by
  cases h <;> rfl

/-- A legal write answers a next state with the response OKAY (spec/20_memory.md R41). -/
theorem step_write_okay (s : State) (a : Offset) (n : Size) (v : Word) (tgt : Target)
    (h : target s.params a.toNat n.bytes = some tgt) :
    ∃ t, step (s.issuing (.write a n v)) = .next t ∧ t.response = some (.write .okay) := by
  obtain ⟨t, ht, he⟩ := writeTarget_cases (s.answered (.write .okay)) n.bytes v tgt
    (fun w i e => (target_bound _ _ _ w i (e ▸ h)).1)
  exact ⟨t, (step_write s a n v tgt h).trans ht, writeEffect_response he⟩

/-! ## Lanes of a window -/

/-- DIGEST, BBUF and TBUF are RAM (spec/10_state.md R28, R29, R30). -/
theorem element_eq_ram (s : State) {w : Window} (hw : w ≠ .code) (i : Nat) : s.element w i = s.ram (w.base + i) := by
  cases w with
  | code => exact absurd rfl hw
  | digest => rfl
  | bbuf => rfl
  | tbuf => rfl

/-- An idle write to a RAM window is a write to RAM (spec/20_memory.md R41). -/
theorem writeWindow_idle (bs : List Byte) (s : State) {w : Window} (hw : w ≠ .code) (i : Nat)
    (hb : s.status.busy = false) : writeWindow bs s w i = s.writeRam (w.base + i) bs := by
  cases w with
  | code => exact absurd rfl hw
  | digest => exact storeInput_idle _ _ hb
  | bbuf => exact storeInput_idle _ _ hb
  | tbuf => exact storeInput_idle _ _ hb

/-- Lane `k` of a window read is element `i + k` (spec/20_memory.md R36, R40). -/
theorem extract_readTarget (s : State) (w : Window) (i : Nat) (n : Size) {k : Nat} (hk : k < n.bytes) :
    (readTarget s n.bytes (.window w i)).extractLsb' (8 * k) 8 = s.element w (i + k) := by
  rw [readTarget, extract_packLanes _ k (hk.trans_le (size_le n))]
  simp [List.getD, hk]

/-- Above its lanes a window read is 0 (spec/20_memory.md R40). -/
theorem readTarget_window_lt (s : State) (w : Window) (i n : Nat) :
    (readTarget s n (.window w i)).toNat < 2 ^ (8 * n) := by
  simpa only [List.length_map, List.length_range, readTarget] using
    packLanes_lt ((List.range n).map fun k => s.element w (i + k))

/-- Lane `k` of a window write lands at offset `a + k` (spec/20_memory.md R36, R41). -/
theorem ram_writeRam_lane (s : State) (a n : Nat) (v : Word) {k : Nat} (hk : k < n) :
    (s.writeRam a (unpackLanes n v)).ram (a + k) = v.extractLsb' (8 * k) 8 := by
  rw [ram_writeRam, if_pos (by rw [length_unpackLanes]; omega), Nat.add_sub_cancel_left, getD_unpackLanes n v k hk]

/-- A window write changes no byte outside its lanes. -/
theorem ram_writeRam_outside (s : State) (a n : Nat) (v : Word) {j : Nat} (h : j < a ∨ a + n ≤ j) :
    (s.writeRam a (unpackLanes n v)).ram j = s.ram j := by
  rw [ram_writeRam, if_neg (by rw [length_unpackLanes]; omega)]

/-! ## Reserved bits -/

/-- A register of `k` bits reads 0 above them. -/
theorem setWidth_and_reserved {k : Nat} (x : BitVec k) :
    x.setWidth 32 &&& ~~~(BitVec.ofNat 32 (2 ^ k - 1)) = 0 := by
  apply BitVec.eq_of_getLsbD_eq
  intro j hj
  by_cases h : j < k
  · simp [BitVec.getLsbD_ofNat, Nat.testBit_two_pow_sub_one, h, hj]
  · simp [BitVec.getLsbD_of_ge x j (by omega)]

/-- Two layouts that share no bit in either part share none. -/
theorem append_and_append_eq_zero {m k : Nat} {x x' : BitVec m} {y y' : BitVec k} (hx : x &&& x' = 0)
    (hy : y &&& y' = 0) : (x ++ y) &&& (x' ++ y') = 0 := by
  rw [BitVec.and_append, hx, hy]
  exact BitVec.zero_append_zero

/-- CTRL reads 0 in bits 31:9, by its layout (spec/10_state.md R20). -/
theorem ctrlWord_and_reserved (c : Ctrl) : ctrlWord c &&& ~~~0x000001FF = 0 := by
  have hmask : (~~~0x000001FF : Word) =
      BitVec.allOnes 23 ++ (0 : BitVec 1) ++ (0 : BitVec 4) ++ (0 : BitVec 1) ++ (0 : BitVec 3) := by decide
  rw [hmask]
  exact append_and_append_eq_zero (append_and_append_eq_zero (append_and_append_eq_zero (append_and_append_eq_zero
    BitVec.zero_and BitVec.and_zero) BitVec.and_zero) BitVec.and_zero) BitVec.and_zero

/-- STATUS reads 0 in bits 7:4 and 31:16, by its layout (spec/10_state.md R22). -/
theorem statusWord_and_reserved (st : Status) : statusWord st &&& ~~~0x0000FF0F = 0 := by
  have hmask : (~~~0x0000FF0F : Word) =
      BitVec.allOnes 16 ++ (0 : Byte) ++ BitVec.allOnes 4 ++ (0 : BitVec 1) ++ (0 : BitVec 1) ++ (0 : BitVec 1)
        ++ (0 : BitVec 1) := by decide
  rw [hmask]
  exact append_and_append_eq_zero (append_and_append_eq_zero (append_and_append_eq_zero (append_and_append_eq_zero
    (append_and_append_eq_zero (append_and_append_eq_zero
      BitVec.zero_and BitVec.and_zero) BitVec.zero_and) BitVec.and_zero) BitVec.and_zero) BitVec.and_zero) BitVec.and_zero

/-- Words that agree under a mask agree in each bit of the mask. -/
theorem getLsbD_eq_of_and_eq {v v' m : Word} (h : v &&& m = v' &&& m) {j : Nat} (hj : m.getLsbD j = true) :
    v.getLsbD j = v'.getLsbD j := by
  simpa [hj] using congrArg (fun x : Word => x.getLsbD j) h

/-- Words that agree under a mask agree in each field the mask covers. -/
theorem extractLsb'_eq_of_and_eq {v v' m : Word} (h : v &&& m = v' &&& m) {i k : Nat}
    (hm : ∀ j < k, m.getLsbD (i + j) = true) : v.extractLsb' i k = v'.extractLsb' i k := by
  apply BitVec.eq_of_getLsbD_eq
  intro j hj
  simp only [BitVec.getLsbD_extractLsb', getLsbD_eq_of_and_eq h (hm j hj)]

/-- Words that agree in their low `k` bits give a register of `k` bits one value. -/
theorem lowBits_eq_of_and_eq {v v' : Word} {k : Nat} (hk : k ≤ 32)
    (h : v &&& BitVec.ofNat 32 (2 ^ k - 1) = v' &&& BitVec.ofNat 32 (2 ^ k - 1)) :
    v.extractLsb' 0 k = v'.extractLsb' 0 k :=
  extractLsb'_eq_of_and_eq h fun j hj => by
    simp [BitVec.getLsbD_ofNat, Nat.testBit_two_pow_sub_one, hj, hj.trans_le hk]

/-- A write to CTRL stores bits 8:0 alone (spec/10_state.md R20). -/
theorem ctrlOfWord_eq_of_and_eq {v v' : Word} (h : v &&& 0x000001FF = v' &&& 0x000001FF) :
    ctrlOfWord v = ctrlOfWord v' := by
  simp only [ctrlOfWord, extractLsb'_eq_of_and_eq h (i := 0) (k := 3) (by decide),
    extractLsb'_eq_of_and_eq h (i := 4) (k := 4) (by decide), getLsbD_eq_of_and_eq h (j := 3) (by decide),
    getLsbD_eq_of_and_eq h (j := 8) (by decide)]

/-- A write to STATUS looks at bits 3:1 alone (spec/10_state.md R22). -/
theorem acknowledge_eq_of_and_eq {v v' : Word} (h : v &&& 0x0000FF0F = v' &&& 0x0000FF0F) (s : State) :
    acknowledge v s = acknowledge v' s := by
  simp only [acknowledge, clearStatus, getLsbD_eq_of_and_eq h (j := 1) (by decide),
    getLsbD_eq_of_and_eq h (j := 2) (by decide), getLsbD_eq_of_and_eq h (j := 3) (by decide)]

/-- A word with a reserved bit set is no command (spec/30_encoding.md R54). -/
theorem decodeWord_of_reservedBits {w : Word} (h : 256 ≤ w.toNat) : decodeWord w = .error .reservedBits := by
  refine if_neg fun hz => ?_
  have hdiv : w.toNat / 2 ^ 8 % 2 ^ 24 = 0 := by
    rw [← BitVec.toNat_ofNat, ← extractLsb'_eq_ofNat]
    exact congrArg BitVec.toNat hz
  have hlt := w.isLt
  omega

/-! ## The host while a command is pending -/

/-- The one operation that acts on a pending command (spec/42_control.md R81). -/
def sresetWrite : BusOp := .write 0x00C .word 0x000000FF

/-- Only the SRESET write is a write of its word that addresses CMD. -/
theorem eq_sresetWrite {p : Params} {a : Offset} {n : Size} (h : target p a.toNat n.bytes = some (.reg .cmd)) :
    BusOp.write a n 0x000000FF = sresetWrite := by
  obtain ⟨hreg, hn⟩ := target_reg p a.toNat n.bytes .cmd h
  obtain rfl : a = 0x00C := BitVec.eq_of_toNat_eq (eq_of_regAt_cmd _ hreg)
  obtain rfl := eq_word_of_bytes hn
  rfl

/-- While BUSY, a transaction other than the SRESET write changes nothing but STATUS and the response, and BUSY stays
(spec/70_reset_and_hazards.md R107). -/
theorem transact_busy (t : BusOp) (s : State) (hb : s.status.busy = true) (ht : t ≠ sresetWrite) :
    ∃ u, transact t s = .next u ∧ u.status.busy = true
      ∧ u = { s with status := u.status, response := u.response } := by
  cases t with
  | read a n => exact ⟨_, rfl, hb, rfl⟩
  | write a n v =>
    cases htgt : target s.params a.toNat n.bytes with
    | none => exact ⟨s.respond (.write .error), by simp only [transact, htgt], hb, rfl⟩
    | some tgt =>
      have hcmd : tgt = .reg .cmd → v ≠ 0x000000FF := by
        rintro rfl rfl
        exact ht (eq_sresetWrite htgt)
      obtain ⟨u, hu, hcases⟩ := writeTarget_busy n.bytes v (s.respond (.write .okay)) tgt hb hcmd
      refine ⟨u, by simp only [transact, htgt, hu], ?_⟩
      rcases hcases with rfl | rfl | rfl <;> exact ⟨hb, rfl⟩

end Sys2Proof.Machine

open Sys2Proof Sys2Proof.Machine

/-- Settles O37: an access addresses something exactly if it is legal. -/
theorem illegalTransactionsChangeNothing : Obligations.IllegalTransactionsChangeNothing := by
  intro s a n v hp
  have hiff := target_isSome_iff s.params a.toNat n.bytes hp (size_pos n)
  refine ⟨fun hill => ?_, fun hlegal => ?_⟩
  · exact step_illegal s a n v (by simpa using mt hiff.1 hill)
  · obtain ⟨tgt, htgt⟩ := Option.isSome_iff_exists.1 (hiff.2 hlegal)
    exact ⟨⟨_, step_read s a n tgt htgt⟩, step_write_okay s a n v tgt htgt⟩

/-- Settles O38: the read packs the elements as lanes. -/
theorem windowReadsUseLittleEndianLanes : Obligations.WindowReadsUseLittleEndianLanes := fun s w i n hp ha hi =>
  ⟨_, step_read s _ n (.window w i) (target_windowOffset hp ha hi), fun _ hk => extract_readTarget s w i n hk,
    readTarget_window_lt s w i n.bytes⟩

/-- Settles O39: the step is the write of the lanes to RAM on top of the OKAY response. -/
theorem idleWindowWritesStoreTheirLanes : Obligations.IdleWindowWritesStoreTheirLanes := by
  intro s w i n v hp hw ha hi hb
  refine ⟨(s.answered (.write .okay)).writeRam (w.base + i) (unpackLanes n.bytes v), ?_, rfl, fun k hk => ?_,
    fun a hout => ram_writeRam_outside _ _ n.bytes v hout⟩
  · rw [step_write s _ n v (.window w i) (target_windowOffset hp ha hi), writeTarget,
      writeWindow_idle _ (s.answered (.write .okay)) hw i hb]
  · rw [element_eq_ram _ hw, ← Nat.add_assoc]
    exact ram_writeRam_lane _ _ _ v hk

/-- Settles O44: a legal access there addresses a read-only register or CODE. -/
theorem readOnlyWritesAreIgnored : Obligations.ReadOnlyWritesAreIgnored := by
  intro s a n v hlegal ha
  rcases ha with hreg | ⟨hlo, hhi⟩
  · obtain ⟨r, hr, hignored⟩ : ∃ r, regAt a.toNat = some r ∧ ∀ u, writeReg v u r = .next u := by
      simp only [List.mem_cons, List.not_mem_nil, or_false] at hreg
      rcases hreg with rfl | rfl | rfl | rfl | rfl
      · exact ⟨.id, rfl, fun _ => rfl⟩
      · exact ⟨.version, rfl, fun _ => rfl⟩
      · exact ⟨.offset, rfl, fun _ => rfl⟩
      · exact ⟨.codelen, rfl, fun _ => rfl⟩
      · exact ⟨.params, rfl, fun _ => rfl⟩
    obtain rfl := size_eq_word_of_below hlegal (regAt_legal hr).1
    rw [step_write_reg s v r hr, hignored]
  · exact step_write s a n v _ (target_code hlegal hlo hhi)

/-- Settles O47: each register reads and stores only under its mask. -/
theorem reservedBitsReadZeroAndIgnoreWrites : Obligations.ReservedBitsReadZeroAndIgnoreWrites := by
  refine ⟨fun s r hr => ?_, fun w hw => ⟨_, decodeWord_of_reservedBits hw⟩⟩
  simp only [List.mem_cons, List.not_mem_nil, or_false] at hr
  rcases hr with rfl | rfl | rfl | rfl | rfl | rfl | rfl
  · exact ⟨ctrlWord_and_reserved s.ctrl, fun v v' h => by rw [writeReg, writeReg, ctrlOfWord_eq_of_and_eq h]⟩
  · exact ⟨statusWord_and_reserved s.status, fun v v' h => by rw [writeReg, writeReg, acknowledge_eq_of_and_eq h]⟩
  · exact ⟨setWidth_and_reserved s.offset, fun _ _ _ => rfl⟩
  · exact ⟨setWidth_and_reserved s.fullcode, fun v v' h => by
      rw [writeReg, writeReg, lowBits_eq_of_and_eq (by decide) h]⟩
  · exact ⟨setWidth_and_reserved s.codelen, fun _ _ _ => rfl⟩
  · exact ⟨setWidth_and_reserved s.blen, fun v v' h => by rw [writeReg, writeReg, lowBits_eq_of_and_eq (by decide) h]⟩
  · exact ⟨setWidth_and_reserved s.tlen, fun v v' h => by rw [writeReg, writeReg, lowBits_eq_of_and_eq (by decide) h]⟩

/-- Settles O48: a WAIT round only polls, and a transaction while BUSY writes STATUS at most. -/
theorem hostCannotChangeAPendingCommand : Obligations.HostCannotChangeAPendingCommand := by
  intro s op rest ts hr hb hs hh hop
  rw [step_host s ts hs]
  cases op with
  | wait =>
    have hhost : (poll rest (s.setSchedule ts)).host = s.host := if_pos hb
    exact ⟨_, hostTurn_wait (s.setSchedule ts) rest hr hh, hb, rfl, .inr ⟨rfl, hhost⟩⟩
  | txn t =>
    obtain ⟨u, hu, hbusy, hframe⟩ :=
      transact_busy t ((s.setSchedule ts).setHost rest) hb (fun h => hop (congrArg HostOp.txn h))
    have hhost : u.host = rest := congrArg State.host hframe
    refine ⟨u, (hostTurn_txn (s.setSchedule ts) t rest hr hh).trans hu, hbusy, ?_, .inl hhost⟩
    rw [hhost]
    exact hframe

end

section
/-! PROOFS. 30_encoding.md: the commands as a list, what decoding a word can answer, the encoder as its inverse, which
results each command writes, and the statements settled by them. -/

namespace Sys2Proof.Machine

/-! ## The commands and their words -/

/-- The commands in the order of the opcode map (spec/30_encoding.md R52). -/
def commands : List Instr := [.nop, .b32enc, .b32dec, .trunc, .decimal, .steam, .hotp, .steamcode, .sreset]

theorem mem_commands (i : Instr) : i ∈ commands := by cases i <;> decide

/-- The opcode map, made from the encoder (spec/30_encoding.md R52). -/
def opcodeMap : List (Word × Instr) := commands.map fun i => (encode i, i)

/-- The assigned opcodes, made from the encoder (spec/30_encoding.md R52). -/
def opcodes : List Nat := commands.map fun i => (encode i).toNat

theorem mem_opcodeMap_iff (w : Word) (i : Instr) : (w, i) ∈ opcodeMap ↔ w = encode i := by
  simp [opcodeMap, mem_commands, eq_comm]

theorem mem_opcodes_iff (w : Word) : w.toNat ∈ opcodes ↔ ∃ i, w = encode i := by
  simp [opcodes, mem_commands, BitVec.toNat_inj, eq_comm]

/-- Every command's word is its opcode, with RSV 0 (spec/30_encoding.md R51). -/
theorem encode_lt (i : Instr) : (encode i).toNat < 256 := by cases i <;> decide

/-! ## Decoding -/

/-- A word without reserved bits is its OP field (spec/30_encoding.md R51). -/
theorem opField_of_lt {w : Word} (h : w.toNat < 256) : (opField w).setWidth 32 = w := by
  apply BitVec.eq_of_toNat_eq
  rw [opField, extractLsb'_zero_eq_ofNat, BitVec.toNat_setWidth, BitVec.toNat_ofNat]
  omega

theorem decodeWord_of_lt {w : Word} (h : w.toNat < 256) : decodeWord w = decodeOpcode (opField w) := by
  refine if_pos ?_
  rw [rsvField, extractLsb'_eq_ofNat, Nat.div_eq_of_lt (show w.toNat < 2 ^ 8 from h)]
  rfl

theorem decodeOpcode_of_unlisted {op : Byte} (h : ∀ i, op ≠ opField (encode i)) :
    decodeOpcode op = .error .unassignedOpcode :=
  (if_neg (h .nop)).trans <| (if_neg (h .b32enc)).trans <| (if_neg (h .b32dec)).trans <| (if_neg (h .trunc)).trans <|
    (if_neg (h .decimal)).trans <| (if_neg (h .steam)).trans <| (if_neg (h .hotp)).trans <|
    (if_neg (h .steamcode)).trans <| if_neg (h .sreset)

/-- Decoding undoes encoding (spec/30_encoding.md R52, R53). -/
theorem decodeWord_encode (i : Instr) : decodeWord (encode i) = .ok i := by cases i <;> rfl

/-- All that decoding can answer: a reserved bit is reported first, then an unassigned opcode, and what is left is a
command's own word (spec/30_encoding.md R53). -/
theorem decodeWord_cases (w : Word) :
    (256 ≤ w.toNat ∧ decodeWord w = .error .reservedBits)
      ∨ (w.toNat < 256 ∧ w.toNat ∉ opcodes ∧ decodeWord w = .error .unassignedOpcode)
      ∨ ∃ i, w = encode i := by
  rcases Nat.lt_or_ge w.toNat 256 with hlt | hge
  · by_cases hlisted : ∃ i, opField w = opField (encode i)
    · obtain ⟨i, hi⟩ := hlisted
      exact .inr (.inr ⟨i, by rw [← opField_of_lt hlt, hi, opField_of_lt (encode_lt i)]⟩)
    · have hunlisted : w.toNat ∉ opcodes := fun hmem =>
        hlisted (((mem_opcodes_iff w).1 hmem).imp fun _ => congrArg opField)
      exact .inr (.inl ⟨hlt, hunlisted,
        (decodeWord_of_lt hlt).trans (decodeOpcode_of_unlisted (not_exists.1 hlisted))⟩)
  · exact .inl ⟨hge, decodeWord_of_reservedBits hge⟩

theorem decodeWord_eq_ok_iff (w : Word) (i : Instr) : decodeWord w = .ok i ↔ w = encode i := by
  refine ⟨fun h => ?_, fun h => h ▸ decodeWord_encode i⟩
  rcases decodeWord_cases w with ⟨-, hd⟩ | ⟨-, -, hd⟩ | ⟨j, rfl⟩
  · cases hd.symm.trans h
  · cases hd.symm.trans h
  · cases (decodeWord_encode j).symm.trans h
    rfl

theorem decodeWord_eq_reservedBits_iff (w : Word) : decodeWord w = .error .reservedBits ↔ 256 ≤ w.toNat := by
  rcases decodeWord_cases w with ⟨hge, hd⟩ | ⟨hlt, -, hd⟩ | ⟨i, rfl⟩
  · simp [hd, hge]
  · simp [hd, hlt]
  · simp [decodeWord_encode, encode_lt]

theorem decodeWord_eq_unassignedOpcode_iff (w : Word) :
    decodeWord w = .error .unassignedOpcode ↔ w.toNat < 256 ∧ w.toNat ∉ opcodes := by
  rcases decodeWord_cases w with ⟨hge, hd⟩ | ⟨hlt, hunlisted, hd⟩ | ⟨i, rfl⟩
  · simp [hd, Nat.not_lt.2 hge]
  · simp [hd, hlt, hunlisted]
  · simp [decodeWord_encode, mem_opcodes_iff]

/-- An illegal word is rejected, by either name (spec/30_encoding.md R54). -/
theorem decodeWord_of_illegal {w : Word} (h : 256 ≤ w.toNat ∨ w.toNat ∉ opcodes) : ∃ e, decodeWord w = .error e := by
  rcases decodeWord_cases w with ⟨-, hd⟩ | ⟨-, -, hd⟩ | ⟨i, rfl⟩
  · exact ⟨_, hd⟩
  · exact ⟨_, hd⟩
  · rcases h with hge | hno
    · exact absurd (encode_lt i) (Nat.not_lt.2 hge)
    · exact absurd ((mem_opcodes_iff _).2 ⟨i, rfl⟩) hno

/-- The check on words passes the commands' words only (spec/30_encoding.md R51, R52). -/
theorem wordWellFormed_iff (w : Word) : wordWellFormed w = true ↔ ∃ i, w = encode i := by
  have hfields : wordWellFormed w = true ↔ w.toNat / 256 = 0 ∧ w.toNat % 256 ∈ opcodes := by
    simp only [wordWellFormed, reservedBitsZero, opcodeAssigned, Bool.and_eq_true, beq_iff_eq, List.contains_iff_mem]
    rfl
  rw [hfields, ← mem_opcodes_iff]
  constructor
  · rintro ⟨hrsv, hop⟩
    rwa [Nat.mod_eq_of_lt (by omega)] at hop
  · intro hmem
    obtain ⟨i, rfl⟩ := (mem_opcodes_iff w).1 hmem
    have hlt := encode_lt i
    exact ⟨Nat.div_eq_of_lt hlt, by rwa [Nat.mod_eq_of_lt hlt]⟩

/-! ## Commands as bytes -/

theorem wordOfBytes_extract (w : Word) :
    wordOfBytes (w.extractLsb' 0 8) (w.extractLsb' 8 8) (w.extractLsb' 16 8) (w.extractLsb' 24 8) = w := by
  apply BitVec.eq_of_toNat_eq
  simp only [wordOfBytes, toNat_append_eq, extractLsb'_eq_ofNat, BitVec.toNat_ofNat]
  omega

/-- The bytes of a word decode as the word does (spec/20_memory.md R36). -/
theorem decodeBytes_bytesOfWord (w : Word) : decodeBytes (bytesOfWord w) = decodeWord w :=
  congrArg decodeWord (wordOfBytes_extract w)

/-- A command is its four bytes (spec/30_encoding.md R56). -/
theorem decodeBytes_encode (i : Instr) : decodeBytes (bytesOfWord (encode i)) = .ok i :=
  (decodeBytes_bytesOfWord _).trans (decodeWord_encode i)

theorem decodeBytes_of_length_ne {bs : List Byte} (h : bs.length ≠ 4) : decodeBytes bs = .error .notOneWord := by
  match bs with
  | [] | [_] | [_, _] | [_, _, _] | _ :: _ :: _ :: _ :: _ :: _ => rfl
  | [_, _, _, _] => exact absurd rfl h

/-- A register is accessed as 4 bytes or not at all (spec/20_memory.md R38). -/
theorem target_register_none (p : Params) {a n : Nat} (ha : a < 0x030) (hn : n ≠ 4) : target p a n = none := by
  rw [target, if_pos ha, if_neg hn, ite_self]

/-! ## Which results a command writes -/

/-- Two windows share no offset, with legal sizes (spec/20_memory.md R35). -/
theorem holds_of_ne {p : Params} {v w : Window} {i : Nat} (hp : p.wellFormed = true) (hne : v ≠ w)
    (hi : i < w.size p) : v.holds p (w.base + i) = false := by
  obtain ⟨-, -, hle, -⟩ := (wellFormed_iff p).1 hp
  simp only [Window.holds, Bool.and_eq_false_iff, decide_eq_false_iff_not]
  cases v <;> cases w <;> simp only [Window.base, Window.size, ne_eq, not_true_eq_false] at hne hi ⊢ <;> omega

/-- No command writes CTRL, KEYLEN or WOVR, and none touches the latched word, the pin or the model's own fields
(spec/30_encoding.md R55). -/
theorem commits_inputs {s u : State} {i : Instr} (h : Commits s i u) :
    u.params = s.params ∧ u.ctrl = s.ctrl ∧ u.keylen = s.keylen ∧ u.latched = s.latched ∧ u.rstN = s.rstN
      ∧ u.draw = s.draw ∧ u.host = s.host ∧ u.schedule = s.schedule ∧ u.response = s.response
      ∧ u.status.wovr = s.status.wovr := by
  cases h <;> exact ⟨rfl, rfl, rfl, rfl, rfl, rfl, rfl, rfl, rfl, rfl⟩

/-- OFFSET and FULLCODE are results of the truncations alone (spec/30_encoding.md R55). -/
theorem commits_offset_fullcode {s u : State} {i : Instr} (h : Commits s i u)
    (hi : i ∉ [Instr.trunc, .hotp, .steamcode]) : u.offset = s.offset ∧ u.fullcode = s.fullcode := by
  cases h
  case trunc | hotp | steamcode => exact absurd (by decide) hi
  all_goals exact ⟨rfl, rfl⟩

/-- CODE and CODELEN are results of the four commands that make a code (spec/30_encoding.md R55). -/
theorem commits_code_codelen {s u : State} {i : Instr} (h : Commits s i u)
    (hi : i ∉ [Instr.decimal, .hotp, .steam, .steamcode]) : u.code = s.code ∧ u.codelen = s.codelen := by
  cases h
  case decimal | hotp | steam | steamcode => exact absurd (by decide) hi
  all_goals exact ⟨rfl, rfl⟩

theorem commits_tlen {s u : State} {i : Instr} (h : Commits s i u) (hi : i ≠ .b32enc) : u.tlen = s.tlen := by
  cases h
  case b32enc => exact absurd rfl hi
  all_goals rfl

theorem commits_blen {s u : State} {i : Instr} (h : Commits s i u) (hi : i ≠ .b32dec) : u.blen = s.blen := by
  cases h
  case b32dec => exact absurd rfl hi
  all_goals rfl

/-- A result that fits its window changes no byte outside it. -/
theorem ram_writeRam_of_not_holds {s : State} {w : Window} {out : List Byte} {a : Nat}
    (hfit : out.length ≤ w.size s.params) (hout : w.holds s.params a = false) :
    (s.writeRam w.base out).ram a = s.ram a := by
  rw [ram_writeRam, if_neg]
  simp only [Window.holds, Bool.and_eq_false_iff, decide_eq_false_iff_not] at hout
  omega

/-- B32ENC writes inside TBUF, B32DEC inside BBUF, and no other RAM byte changes, because the results fit
(spec/30_encoding.md R55, spec/40_base32.md R63, R67). -/
theorem commits_ram {s u : State} {i : Instr} (hp : s.params.wellFormed = true) (h : Commits s i u) (a : Nat)
    (ht : i = .b32enc → Window.tbuf.holds s.params a = false) (hb : i = .b32dec → Window.bbuf.holds s.params a = false) :
    u.ram a = s.ram a := by
  cases h
  case b32enc hl =>
    refine ram_writeRam_of_not_holds (w := .tbuf) ?_ (ht rfl)
    rw [length_base32Encode, length_bbufBytes]
    exact encodedLength_le_tbufSize hp hl
  case b32dec out hl ho =>
    have hlen := length_of_base32Decode ho
    rw [length_tbufText] at hlen
    exact ram_writeRam_of_not_holds (w := .bbuf) (hlen.trans (decodedLength_le_bbufSize hp hl)) (hb rfl)
  all_goals rfl

end Sys2Proof.Machine

open Sys2Proof Sys2Proof.Machine

/-- Settles O1: the listed words are the opcode map, and decoding is the encoder's inverse. -/
theorem decodeSelectsExactlyTheListedWords : Obligations.DecodeSelectsExactlyTheListedWords := fun w i =>
  ⟨(decodeWord_eq_ok_iff w i).trans (mem_opcodeMap_iff w i).symm, decodeWord_eq_ok_iff w i⟩

/-- Settles O2, by the three things decoding can answer. -/
theorem everyOtherWordIsRejectedByName : Obligations.EveryOtherWordIsRejectedByName := fun w =>
  ⟨decodeWord_eq_reservedBits_iff w, decodeWord_eq_unassignedOpcode_iff w, by
    simp only [wordWellFormed_iff, decodeWord_eq_ok_iff]⟩

/-- Settles O9: a failure changes STATUS alone, a success commits to its own results, and those fit their window. -/
theorem commandsWriteOnlyTheirListedResults : Obligations.CommandsWriteOnlyTheirListedResults := by
  intro s t i hp hi h
  rcases exec_cases hi h with ⟨u, hc, rfl⟩ | ⟨e, -, rfl⟩
  · have hinputs := commits_inputs hc
    have hfullcode := commits_offset_fullcode hc
    have hcode := commits_code_codelen hc
    have htlen := commits_tlen hc
    have hblen := commits_blen hc
    have hram := commits_ram hp hc
    refine ⟨hinputs, fun k hk => ?digest, hfullcode, hcode, fun hne => ⟨htlen hne, fun k hk => ?tbuf⟩,
      fun hne => ⟨hblen hne, fun k hk => ?bbuf⟩, fun hne a => ?ram⟩
    case digest =>
      exact hram (Window.digest.base + k) (fun _ => holds_of_ne (w := .digest) hp (by decide) hk)
        (fun _ => holds_of_ne (w := .digest) hp (by decide) hk)
    case tbuf =>
      exact hram (Window.tbuf.base + k) (fun h => absurd h hne) (fun _ => holds_of_ne (w := .tbuf) hp (by decide) hk)
    case bbuf =>
      exact hram (Window.bbuf.base + k) (fun _ => holds_of_ne (w := .bbuf) hp (by decide) hk) (fun h => absurd h hne)
    case ram =>
      simp only [List.mem_cons, List.not_mem_nil, or_false, not_or] at hne
      obtain ⟨hnotEnc, hnotDec⟩ := hne
      exact hram a (fun h => absurd h hnotEnc) (fun h => absurd h hnotDec)
  · exact ⟨⟨rfl, rfl, rfl, rfl, rfl, rfl, rfl, rfl, rfl, rfl⟩, fun _ _ => rfl, fun _ => ⟨rfl, rfl⟩, fun _ => ⟨rfl, rfl⟩,
      fun _ => ⟨rfl, fun _ _ => rfl⟩, fun _ => ⟨rfl, fun _ _ => rfl⟩, fun _ _ => rfl⟩

/-- Settles O3: the bytes are those of four commands' words and of a word with a reserved bit. -/
theorem listedWordsDecode : Obligations.ListedWordsDecode :=
  ⟨decodeBytes_encode .nop, decodeBytes_encode .b32dec, decodeBytes_encode .hotp, decodeBytes_encode .sreset,
    decodeWord_of_reservedBits (w := 0x000001FF) (by decide)⟩

/-- Settles O4: a word's bytes decode as the word, and CMD has no target of size 1 or 2. -/
theorem commandsAreExactlyOneWord : Obligations.CommandsAreExactlyOneWord := by
  refine ⟨decodeBytes_encode, fun bs => decodeBytes_of_length_ne, fun s n v hn => ?_⟩
  have hsize : n.bytes ≠ 4 := by rcases hn with rfl | rfl <;> decide
  exact (step_illegal s 0x00C n v (target_register_none s.params (by decide) hsize)).symm

/-- Settles O6: an illegal word is not SRESET's, so it is accepted, and its decoding fails at the completion. -/
theorem illegalWordsCompleteWithIllegalCmd : Obligations.IllegalWordsCompleteWithIllegalCmd := by
  intro s w hill
  obtain ⟨e, he⟩ := decodeWord_of_illegal hill
  refine ⟨fun hb => ?_, fun rest hr hb hl hs => ?_⟩
  · have hne : w ≠ 0x000000FF := by
      rintro rfl
      cases he
    rw [step_write_reg s w .cmd rfl, writeReg_cmd w _ hne, storeInput_idle _ (s.answered (.write .okay)) hb]
    rfl
  · rw [step_engine s rest hs hr hb, completeLatched_error _ e (hl ▸ he)]
    rfl

/-- Settles O49: a WAIT round is the read of STATUS, whose bit 0 is BUSY. -/
theorem waitPollsUntilIdle : Obligations.WaitPollsUntilIdle := by
  intro s rest ts hr hs hh v
  have hbusy : v.getLsbD 0 = s.status.busy := statusWord_busy s.status
  have hread : ∀ u : State, busRead u 0x010 .word = .read .okay (statusWord u.status) := fun u => by
    have htgt : target u.params (0x010 : Offset).toNat Size.word.bytes = some (.reg .status) :=
      target_of_regAt u.params rfl
    simp only [busRead, htgt]
    rfl
  refine ⟨?_, hread s, hbusy⟩
  rw [step_host s ts hs, hostTurn_wait (s.setSchedule ts) rest hr hh, poll, hread, hbusy]
  rfl

end

section
/-! PROOFS. 40_base32.md: the completions of B32ENC and B32DEC, the checks of the decoder one by one, the two sides' common
bit stream, and the statements settled by them. -/

namespace Sys2Proof.Machine

/-! ## The completions -/

/-- B32ENC with BLEN in range commits its text (spec/40_base32.md R62). -/
theorem exec_b32enc {s : State} (h : s.blen.toNat ≤ s.params.bbufSize) :
    exec .b32enc s = .next (succeed (commitText (base32Encode s.bbufBytes) s)) :=
  congrArg (complete · s) (if_neg (Nat.not_lt.2 h))

/-- B32ENC's one error (spec/40_base32.md R62). -/
theorem exec_b32enc_long {s : State} (h : s.params.bbufSize < s.blen.toNat) :
    exec .b32enc s = .next (raise .bufferLength s) :=
  congrArg (complete · s) (if_pos h)

/-- B32DEC's first check (spec/40_base32.md R66). -/
theorem exec_b32dec_long {s : State} (h : s.params.tbufSize < s.tlen.toNat) :
    exec .b32dec s = .next (raise .bufferLength s) :=
  congrArg (complete · s) (if_pos h)

/-- B32DEC with TLEN in range completes as its text decodes (spec/40_base32.md R66). -/
theorem exec_b32dec {s : State} (h : s.tlen.toNat ≤ s.params.tbufSize) :
    exec .b32dec s = complete ((base32Decode s.tbufText).map (commitBytes · s)) s :=
  congrArg (complete · s) (if_neg (Nat.not_lt.2 h))

theorem exec_b32dec_ok {s : State} {out : List Byte} (h : s.tlen.toNat ≤ s.params.tbufSize)
    (ho : base32Decode s.tbufText = .ok out) : exec .b32dec s = .next (succeed (commitBytes out s)) := by
  rw [exec_b32dec h, ho]
  rfl

theorem exec_b32dec_error {s : State} {e : ErrorKind} (h : s.tlen.toNat ≤ s.params.tbufSize)
    (he : base32Decode s.tbufText = .error e) : exec .b32dec s = .next (raise e s) := by
  rw [exec_b32dec h, he]
  rfl

/-- No command changes the buffer sizes (spec/00_scope.md R8). -/
theorem params_of_exec {i : Instr} {s t : State} (hi : i ≠ .sreset) (h : exec i s = .next t) : t.params = s.params := by
  rcases exec_cases hi h with ⟨u, hc, rfl⟩ | ⟨e, -, rfl⟩
  · obtain ⟨hparams, -⟩ := commits_inputs hc
    exact hparams
  · rfl

/-- A committed text stands in TBUF. -/
theorem element_tbuf_commitText (out : List Byte) (s : State) {i : Nat} (h : i < out.length) :
    (succeed (commitText out s)).element .tbuf i = out.getD i 0x00 := by
  have hram := ram_writeRam s Window.tbuf.base out (Window.tbuf.base + i)
  rwa [if_pos (by omega), Nat.add_sub_cancel_left] at hram

/-- Committed bytes stand in BBUF. -/
theorem element_bbuf_commitBytes (out : List Byte) (s : State) {j : Nat} (h : j < out.length) :
    (succeed (commitBytes out s)).element .bbuf j = out.getD j 0x00 := by
  have hram := ram_writeRam s Window.bbuf.base out (Window.bbuf.base + j)
  rwa [if_pos (by omega), Nat.add_sub_cancel_left] at hram

/-- A write of consecutive bytes changes nothing before or behind them. -/
theorem ram_writeRam_elsewhere (s : State) {b a : Nat} {out : List Byte} (h : a < b ∨ b + out.length ≤ a) :
    (s.writeRam b out).ram a = s.ram a := by
  rw [ram_writeRam, if_neg (by omega)]

/-! ## The checks of the decoder, each behind the ones before it -/

/-- Every character is in the alphabet or is `=`: the second check (spec/40_base32.md R66). -/
def State.okChars (s : State) : Prop := ∀ i < s.tlen.toNat, s.textChar i ∈ base32Alphabet ∨ s.textChar i = 0x3D

theorem base32Decode_formatLength {s : State} (hn : s.tlen.toNat % 8 ≠ 0) :
    base32Decode s.tbufText = .error .formatLength :=
  if_pos (by rwa [length_tbufText])

theorem base32Decode_formatChar {s : State} (hn : s.tlen.toNat % 8 = 0) (hc : ¬ s.okChars) :
    base32Decode s.tbufText = .error .formatChar := by
  have hall := mt (all_chars_iff s.textChar s.tlen.toNat).1 hc
  simp only [base32Decode, map_upcase_tbufText, length_tbufText, hn, Bool.eq_false_of_not_eq_true hall]
  rfl

theorem base32Decode_formatPadpos {s : State} (hn : s.tlen.toNat % 8 = 0) (hc : s.okChars)
    (hr : ¬ ∃ q, SuffixRun s.textChar s.tlen.toNat q) : base32Decode s.tbufText = .error .formatPadpos := by
  have hall := (all_chars_iff s.textChar s.tlen.toNat).2 hc
  have hrun := mt (run_all_pad_iff s.textChar s.tlen.toNat).1 hr
  simp only [base32Decode, map_upcase_tbufText, length_tbufText, hn, hall, Bool.eq_false_of_not_eq_true hrun]
  rfl

theorem base32Decode_formatPad {s : State} {q : Nat} (hn : s.tlen.toNat % 8 = 0) (hc : s.okChars)
    (hr : SuffixRun s.textChar s.tlen.toNat q) (hp : s.tlen.toNat - q ∉ [0, 1, 3, 4, 6]) :
    base32Decode s.tbufText = .error .formatPad := by
  have hall := (all_chars_iff s.textChar s.tlen.toNat).2 hc
  have hrun := (run_all_pad_iff s.textChar s.tlen.toNat).2 ⟨q, hr⟩
  have hlen : (((List.range s.tlen.toNat).map s.textChar).dropWhile (· != padChar)).length = s.tlen.toNat - q := by
    rw [(takeWhile_dropWhile_of_suffixRun s.textChar s.tlen.toNat q hr).2, List.length_map, List.length_range]
  simp only [base32Decode, map_upcase_tbufText, length_tbufText, hn, hall, hrun, hlen, if_neg hp]
  rfl

/-- What passes the four checks is legal (spec/40_base32.md R65, R66). -/
theorem legal_of_base32Decode_ok {s : State} {out : List Byte} (h : base32Decode s.tbufText = .ok out) :
    ∃ q, LegalBase32 s.textChar s.tlen.toNat q := by
  by_cases hn : s.tlen.toNat % 8 = 0
  · by_cases hc : s.okChars
    · by_cases hr : ∃ q, SuffixRun s.textChar s.tlen.toNat q
      · obtain ⟨q, hq⟩ := hr
        by_cases hp : s.tlen.toNat - q ∈ [0, 1, 3, 4, 6]
        · exact ⟨q, hn, hc, hq, hp⟩
        · cases (base32Decode_formatPad hn hc hq hp).symm.trans h
      · cases (base32Decode_formatPadpos hn hc hr).symm.trans h
    · cases (base32Decode_formatChar hn hc).symm.trans h
  · cases (base32Decode_formatLength hn).symm.trans h

/-- Decoding sees the text after upper-casing only (spec/40_base32.md R64). -/
theorem base32Decode_congr {l₁ l₂ : List Byte} (h : l₁.map upcase = l₂.map upcase) :
    base32Decode l₁ = base32Decode l₂ := by
  have hlen : l₁.length = l₂.length := by simpa using congrArg List.length h
  rw [base32Decode, base32Decode, h, hlen]

/-! ## Legal text -/

/-- A data character of legal text is in the alphabet (spec/40_base32.md R65). -/
theorem LegalBase32.mem {u : Nat → Byte} {n q i : Nat} (h : LegalBase32 u n q) (hi : i < q) : u i ∈ base32Alphabet := by
  obtain ⟨-, hc, ⟨hq, hd, -⟩, -⟩ := h
  exact (hc i (by omega)).resolve_right (hd i hi)

theorem LegalBase32.le {u : Nat → Byte} {n q : Nat} (h : LegalBase32 u n q) : q ≤ n := by
  obtain ⟨-, -, ⟨hq, -, -⟩, -⟩ := h
  exact hq

/-- The data characters of the last group and the bytes they give, by the padding run (spec/40_base32.md R67). -/
theorem LegalBase32.lastGroup {u : Nat → Byte} {n q : Nat} (h : LegalBase32 u n q) :
    (n - q, q % 8, 5 * q / 8 - 5 * (q / 8)) ∈ [(0, 0, 0), (6, 2, 1), (4, 4, 2), (3, 5, 3), (1, 7, 4)] := by
  obtain ⟨hn, -, ⟨hq, -, -⟩, hp⟩ := h
  have htable : ∀ p ∈ [0, 1, 3, 4, 6], p < 8 ∧ (p, (8 - p) % 8, 5 * ((8 - p) % 8) / 8)
      ∈ [(0, 0, 0), (6, 2, 1), (4, 4, 2), (3, 5, 3), (1, 7, 4)] := by decide
  obtain ⟨hp8, hrow⟩ := htable _ hp
  have hmod : (8 - (n - q)) % 8 = q % 8 := by omega
  have hbytes : 5 * (q % 8) / 8 = 5 * q / 8 - 5 * (q / 8) := by omega
  exact hbytes ▸ hmod ▸ hrow

/-- The bytes of legal text: bit 7 - x of byte `j` is bit 8j + x of the stream (spec/40_base32.md R66). -/
theorem getLsbD_decodeData_legal {u : Nat → Byte} {n q : Nat} (h : LegalBase32 u n q) {j x : Nat}
    (hj : j < 5 * q / 8) (hx : x < 8) :
    ((decodeData ((List.range q).map u)).getD j 0x00).getLsbD (7 - x) = base32Bit u (8 * j + x) := by
  have hvalue : ∀ c ∈ (List.range q).map u, base32Value c < 32 := by
    intro c hc
    obtain ⟨i, hi, rfl⟩ := List.mem_map.1 hc
    have hmem := h.mem (List.mem_range.1 hi)
    exact base32Value_eq _ hmem ▸ idxOf_base32Alphabet_lt _ hmem
  have hi : (8 * j + x) / 5 < q := by omega
  have hget : ((List.range q).map u).getD ((8 * j + x) / 5) 0x00 = u ((8 * j + x) / 5) := by
    simp [List.getD, hi]
  rw [getLsbD_decodeData _ hvalue j x (by simpa using hj) hx, hget, base32Value_eq _ (h.mem hi), base32Bit]

/-! ## The bit stream of bytes and of their text -/

/-- Bit `x` of a byte sequence, counted from the first byte's most significant bit; missing bytes are 0
(spec/40_base32.md R61). -/
def byteBit (bs : List Byte) (x : Nat) : Bool := (bs.getD (x / 8) 0x00).getLsbD (7 - x % 8)

/-- Behind the last byte the bits are 0. -/
theorem byteBit_of_le {bs : List Byte} {x : Nat} (h : 8 * bs.length ≤ x) : byteBit bs x = false := by
  rw [byteBit, List.getD_eq_default _ _ (by omega)]
  exact BitVec.getLsbD_zero

/-- A byte is its eight bits of the stream. -/
theorem eq_of_byteBit {bs : List Byte} {c : Byte} {j : Nat} (h : ∀ x < 8, c.getLsbD (7 - x) = byteBit bs (8 * j + x)) :
    c = bs.getD j 0x00 := by
  apply BitVec.eq_of_getLsbD_eq
  intro b hb
  have hbit := h (7 - b) (by omega)
  rwa [byteBit, show (8 * j + (7 - b)) / 8 = j by omega, show 7 - (8 * j + (7 - b)) % 8 = b by omega,
    show 7 - (7 - b) = b by omega] at hbit

/-- A group's value joins its five bytes: in the branch of the byte that holds the bit the positions agree, and the other
branches are other bytes'. -/
theorem getLsbD_groupValue (bs : List Byte) {x : Nat} (h : x < 40) :
    (groupValue bs).getLsbD (39 - x) = byteBit bs x := by
  simp only [groupValue, BitVec.getLsbD_append, byteBit]
  have hbyte : x / 8 = 0 ∨ x / 8 = 1 ∨ x / 8 = 2 ∨ x / 8 = 3 ∨ x / 8 = 4 := by omega
  rcases hbyte with hb | hb | hb | hb | hb <;> rw [hb] <;> split_ifs <;> congr 1 <;> omega

/-- The five bytes of group `g`, fewer at the end (spec/40_base32.md R60). -/
def groupBytes (bs : List Byte) (g : Nat) : List Byte := (bs.drop (5 * g)).take 5

theorem length_groupBytes (bs : List Byte) (g : Nat) : (groupBytes bs g).length = min 5 (bs.length - 5 * g) := by
  simp [groupBytes]

theorem getD_groupBytes (bs : List Byte) (g : Nat) {j : Nat} (h : j < 5) :
    (groupBytes bs g).getD j 0x00 = bs.getD (5 * g + j) 0x00 := by
  simp [groupBytes, List.getD, h]

/-- The 5-bit value that character `i` of the text takes from its group, missing bytes 0 (spec/40_base32.md R61). -/
def dataValue (bs : List Byte) (i : Nat) : BitVec 5 :=
  (groupValue (groupBytes bs (i / 8))).extractLsb' (35 - 5 * (i % 8)) 5

/-- The values of the characters are the bit stream of the bytes, five bits each (spec/40_base32.md R61). -/
theorem testBit_dataValue (bs : List Byte) (x : Nat) :
    (dataValue bs (x / 5)).toNat.testBit (4 - x % 5) = byteBit bs x := by
  have hpos : 35 - 5 * (x / 5 % 8) + (4 - x % 5) = 39 - x % 40 := by omega
  have hgroup : 5 * (x / 5 / 8) + x % 40 / 8 = x / 8 := by omega
  have hbit : x % 40 % 8 = x % 8 := by omega
  rw [BitVec.testBit_toNat, dataValue, BitVec.getLsbD_extractLsb', hpos, getLsbD_groupValue _ (Nat.mod_lt _ (by decide)),
    byteBit, getD_groupBytes _ _ (by omega), hgroup, hbit, byteBit]
  simp only [show 4 - x % 5 < 5 by omega, decide_true, Bool.true_and]

/-- Characters of the text of `n` bytes before its padding (spec/40_base32.md R60). -/
def dataLength (n : Nat) : Nat := 8 * (n / 5) + dataChars (n % 5)

/-- The padding and the bytes that go with the data characters, by the bytes of the last group (spec/40_base32.md R60). -/
theorem dataLength_bytes_padding (n : Nat) : dataLength n ≤ 8 * ((n + 4) / 5) ∧ 5 * dataLength n / 8 = n
    ∧ 8 * ((n + 4) / 5) - dataLength n ∈ [0, 1, 3, 4, 6] := by
  have htable : ∀ r < 5, dataChars r ≤ 8 * ((r + 4) / 5) ∧ 5 * dataChars r / 8 = r
      ∧ 8 * ((r + 4) / 5) - dataChars r ∈ [0, 1, 3, 4, 6] := by decide
  obtain ⟨hle, hbytes, hpad⟩ := htable (n % 5) (Nat.mod_lt _ (by decide))
  have hgroups : (n + 4) / 5 = n / 5 + (n % 5 + 4) / 5 := by omega
  have hsplit : 8 * ((n + 4) / 5) - dataLength n = 8 * ((n % 5 + 4) / 5) - dataChars (n % 5) := by
    rw [dataLength, hgroups]
    omega
  refine ⟨?_, ?_, hsplit ▸ hpad⟩ <;> rw [dataLength]
  · omega
  · omega

/-- A character of a group is data exactly if it stands before the padding of the whole text. -/
theorem lt_dataChars_iff {n i : Nat} (h : i < 8 * ((n + 4) / 5)) :
    i % 8 < dataChars (min 5 (n - 5 * (i / 8))) ↔ i < dataLength n := by
  have hlast : dataChars (n % 5) ≤ 8 := by
    have hall : ∀ r < 5, dataChars r ≤ 8 := by decide
    exact hall _ (Nat.mod_lt _ (by decide))
  have hgroup : i / 8 ≤ n / 5 := by omega
  rw [dataLength]
  rcases Nat.lt_or_eq_of_le hgroup with hfull | hlastGroup
  · have hfive : dataChars (min 5 (n - 5 * (i / 8))) = 8 := by rw [Nat.min_eq_left (by omega)]; rfl
    omega
  · rw [show min 5 (n - 5 * (i / 8)) = n % 5 by omega]
    omega

/-- Character `i` of the text, from its group (spec/40_base32.md R60 to R62). -/
theorem getD_base32Encode (bs : List Byte) {i : Nat} (h : i < 8 * ((bs.length + 4) / 5)) :
    (base32Encode bs).getD i 0x00 =
      if i % 8 < dataChars (min 5 (bs.length - 5 * (i / 8))) then base32Char (dataValue bs i) else padChar := by
  have hgroup := getD_encodeGroups ((bs.length + 4) / 5) bs (i / 8) (i % 8) (by omega) (by omega)
  rw [Nat.div_add_mod] at hgroup
  rw [base32Encode, hgroup, getD_encodeGroup _ _ (by omega), ← groupBytes, length_groupBytes, dataValue]

/-! ## The text of BBUF -/

theorem getD_bbufBytes (s : State) (k : Nat) :
    s.bbufBytes.getD k 0x00 = if k < s.blen.toNat then s.element .bbuf k else 0x00 := by
  split_ifs with h
  · rw [List.getD_eq_getElem _ _ (by simpa using h)]
    exact getElem_ramList ..
  · exact List.getD_eq_default _ _ (by simpa using h)

/-- The model's group is the spec's (spec/40_base32.md R61). -/
theorem toNat_groupValue_bbufBytes (s : State) (k : Nat) :
    (groupValue (groupBytes s.bbufBytes k)).toNat = s.bbufGroup k := by
  rw [toNat_groupValue, State.bbufGroup]
  simp only [getD_groupBytes _ _ (show 0 < 5 by decide), getD_groupBytes _ _ (show 1 < 5 by decide),
    getD_groupBytes _ _ (show 2 < 5 by decide), getD_groupBytes _ _ (show 3 < 5 by decide),
    getD_groupBytes _ _ (show 4 < 5 by decide), getD_bbufBytes, apply_ite BitVec.toNat]
  rfl

/-- The model's character is the spec's (spec/40_base32.md R60 to R62). -/
theorem getD_base32Encode_bbufBytes (s : State) {k j : Nat} (hk : k < (s.blen.toNat + 4) / 5) (hj : j < 8) :
    (base32Encode s.bbufBytes).getD (8 * k + j) 0x00 = s.encodedChar k j := by
  have hdata : ∀ r ≤ 5, dataChars r = [0, 2, 4, 5, 7, 8].getD r 0 := by decide
  have hvalue : ((groupValue (groupBytes s.bbufBytes k)).extractLsb' (35 - 5 * j) 5).toNat
      = s.bbufGroup k / 2 ^ (35 - 5 * j) % 32 := by
    rw [BitVec.extractLsb'_toNat, Nat.shiftRight_eq_div_pow, toNat_groupValue_bbufBytes]
  have hgroup : (8 * k + j) / 8 = k := by omega
  have hchar : (8 * k + j) % 8 = j := by omega
  rw [getD_base32Encode _ (by rw [length_bbufBytes]; omega), dataValue, length_bbufBytes, hgroup, hchar,
    hdata _ (Nat.min_le_left ..), base32Char_eq, hvalue]
  rfl

/-! ## What B32ENC and B32DEC leave, for the round trips -/

theorem upcase_base32Char (v : BitVec 5) : upcase (base32Char v) = base32Char v := upcase_of_mem _ (base32Char_mem v)

theorem base32Char_ne_padChar (v : BitVec 5) : base32Char v ≠ padChar := fun h =>
  padChar_not_mem (h ▸ base32Char_mem v)

/-- Where a text holds the character of the bytes, their bits agree (spec/40_base32.md R61). -/
theorem base32Bit_of_dataValue {u : Nat → Byte} {bs : List Byte} {x : Nat}
    (h : u (x / 5) = base32Char (dataValue bs (x / 5))) : base32Bit u x = byteBit bs x := by
  rw [base32Bit, h, ← base32Value_eq _ (base32Char_mem _), base32Value_base32Char, testBit_dataValue]

/-- TLEN holds the length of the text, which fits 16 bits (spec/40_base32.md R63). -/
theorem toNat_tlen_of_b32enc {s t : State} (hp : s.params.wellFormed = true) (hn : s.blen.toNat ≤ s.params.bbufSize)
    (ht : exec .b32enc s = .next t) : t.tlen.toNat = 8 * ((s.blen.toNat + 4) / 5) := by
  obtain ⟨-, -, hsize, -⟩ := (wellFormed_iff _).1 hp
  cases (exec_b32enc hn).symm.trans ht
  rw [succeed_tlen, commitText_tlen, length_base32Encode, length_bbufBytes, BitVec.toNat_ofNat]
  omega

/-- BLEN holds the number of bytes that legal text gives (spec/40_base32.md R67). -/
theorem toNat_blen_of_b32dec {s t : State} {q : Nat} (hn : s.tlen.toNat ≤ s.params.tbufSize)
    (hlegal : LegalBase32 s.textChar s.tlen.toNat q) (ht : exec .b32dec s = .next t) : t.blen.toNat = 5 * q / 8 := by
  have hq := hlegal.le
  have hlt := s.tlen.isLt
  cases (exec_b32dec_ok hn (base32Decode_ok s q hlegal)).symm.trans ht
  rw [succeed_blen, commitBytes_blen, length_decodeData, List.length_map, List.length_range, BitVec.toNat_ofNat]
  omega

/-- B32DEC keeps TBUF: it writes to BBUF alone (spec/30_encoding.md R55). -/
theorem element_tbuf_of_b32dec {s t : State} (hp : s.params.wellFormed = true) (ht : exec .b32dec s = .next t) {i : Nat}
    (hi : i < s.params.tbufSize) : t.element .tbuf i = s.element .tbuf i := by
  obtain ⟨-, -, -, -, hkeep, -⟩ := commandsWriteOnlyTheirListedResults s t .b32dec hp (by decide) ht
  obtain ⟨-, htbuf⟩ := hkeep (by decide)
  exact htbuf i hi

/-- Character `i` of TBUF after B32ENC: data, then padding (spec/40_base32.md R60 to R62). -/
theorem element_tbuf_of_b32enc {s t : State} (hn : s.blen.toNat ≤ s.params.bbufSize) (ht : exec .b32enc s = .next t)
    {i : Nat} (hi : i < 8 * ((s.blen.toNat + 4) / 5)) :
    t.element .tbuf i = if i < dataLength s.blen.toNat then base32Char (dataValue s.bbufBytes i) else padChar := by
  cases (exec_b32enc hn).symm.trans ht
  have hlen := length_bbufBytes s
  rw [element_tbuf_commitText _ s (by rwa [length_base32Encode, hlen]), getD_base32Encode _ (by rwa [hlen]), hlen]
  simp only [lt_dataChars_iff hi]

/-- B32ENC writes no lower-case letter (spec/40_base32.md R59, R64). -/
theorem textChar_of_b32enc {s t : State} (hn : s.blen.toNat ≤ s.params.bbufSize) (ht : exec .b32enc s = .next t)
    {i : Nat} (hi : i < 8 * ((s.blen.toNat + 4) / 5)) : t.textChar i = t.element .tbuf i := by
  rw [State.textChar, element_tbuf_of_b32enc hn ht hi]
  split_ifs
  · exact upcase_base32Char _
  · rfl

/-- B32ENC writes legal text (spec/40_base32.md R60, R65). -/
theorem legal_of_b32enc {s t : State} (hp : s.params.wellFormed = true) (hn : s.blen.toNat ≤ s.params.bbufSize)
    (ht : exec .b32enc s = .next t) : LegalBase32 t.textChar t.tlen.toNat (dataLength s.blen.toNat) := by
  have hchar : ∀ i < 8 * ((s.blen.toNat + 4) / 5),
      t.textChar i = if i < dataLength s.blen.toNat then base32Char (dataValue s.bbufBytes i) else padChar := fun i hi =>
    (textChar_of_b32enc hn ht hi).trans (element_tbuf_of_b32enc hn ht hi)
  obtain ⟨hle, -, hpad⟩ := dataLength_bytes_padding s.blen.toNat
  rw [toNat_tlen_of_b32enc hp hn ht]
  refine ⟨by omega, fun i hi => ?_, ⟨hle, fun i hi => ?_, fun i hqi hi => ?_⟩, hpad⟩
  · rw [hchar i hi]
    split_ifs
    · exact .inl (base32Char_mem _)
    · exact .inr rfl
  · rw [hchar i (by omega), if_pos hi]
    exact base32Char_ne_padChar _
  · rw [hchar i hi, if_neg (by omega)]
    rfl

end Sys2Proof.Machine

open Sys2Proof Sys2Proof.Machine

/-- Settles O18: the check of BLEN fails. -/
theorem b32encRejectsALongBlen : Obligations.B32encRejectsALongBlen := fun _ h => exec_b32enc_long h

/-- Settles O17: the commit changes TBUF from its first byte on, character by character as the spec says. -/
theorem b32encWritesTheBase32Text : Obligations.B32encWritesTheBase32Text := by
  intro s _ hn
  have hlen : (base32Encode s.bbufBytes).length = 8 * ((s.blen.toNat + 4) / 5) := by simp
  refine ⟨_, exec_b32enc hn, ?_, fun k j hk hj => ?_, fun a ha => ?_⟩
  · rw [← hlen]
    rfl
  · rw [element_tbuf_commitText _ s (by omega)]
    exact getD_base32Encode_bbufBytes s hk hj
  · exact ram_writeRam_elsewhere s (hlen ▸ ha)

/-- Settles O19: legal sizes leave room for the text of a full BBUF. -/
theorem b32encCannotOverflowTbuf : Obligations.B32encCannotOverflowTbuf := by
  intro s t hp hn ht
  have htlen := toNat_tlen_of_b32enc hp hn ht
  exact ⟨htlen, htlen ▸ encodedLength_le_tbufSize hp hn⟩

/-- Settles O20: legal text decodes by its data characters, and the commit changes BBUF from its first byte on. -/
theorem b32decWritesTheDecodedBytes : Obligations.B32decWritesTheDecodedBytes := by
  intro s q _ hn hlegal
  have hlen : (decodeData ((List.range q).map s.textChar)).length = 5 * q / 8 := by simp
  refine ⟨_, exec_b32dec_ok hn (base32Decode_ok s q hlegal), ?_, fun j x hj hx => ?_, fun a ha => ?_⟩
  · rw [← hlen]
    rfl
  · rw [element_bbuf_commitBytes _ s (hlen ▸ hj)]
    exact getLsbD_decodeData_legal hlegal hj hx
  · exact ram_writeRam_elsewhere s (hlen ▸ ha)

/-- Settles O22: one lemma per check. -/
theorem b32decReportsTheFirstFailingCheck : Obligations.B32decReportsTheFirstFailingCheck := by
  intro s
  refine ⟨exec_b32dec_long, fun hn h8 => ?_, fun hn h8 hc => ?_, fun hn h8 hc hr => ?_, fun q hn h8 hc hr hp => ?_⟩
  · exact exec_b32dec_error hn (base32Decode_formatLength h8)
  · exact exec_b32dec_error hn (base32Decode_formatChar h8 hc)
  · exact exec_b32dec_error hn (base32Decode_formatPadpos h8 hc hr)
  · exact exec_b32dec_error hn (base32Decode_formatPad h8 hc hr hp)

/-- Settles O21: decoding answers bytes exactly on legal text, and the empty text is legal. -/
theorem b32decAcceptsExactlyLegalText : Obligations.B32decAcceptsExactlyLegalText := by
  intro s _ hn
  have hempty : s.tlen = 0 → LegalBase32 s.textChar s.tlen.toNat 0 := by
    intro h0
    simp [h0, LegalBase32]
  cases ho : base32Decode s.tbufText with
  | ok out =>
    refine ⟨_, exec_b32dec_ok hn ho, ⟨fun _ => legal_of_base32Decode_ok ho, fun _ => rfl⟩, fun h0 => ⟨rfl, ?_⟩⟩
    cases ho.symm.trans (base32Decode_ok s 0 (hempty h0))
    simp
  | error e =>
    have hillegal : ¬ ∃ q, LegalBase32 s.textChar s.tlen.toNat q := by
      rintro ⟨q, hq⟩
      cases ho.symm.trans (base32Decode_ok s q hq)
    exact ⟨_, exec_b32dec_error hn ho, ⟨nofun, fun h => absurd h hillegal⟩, fun h0 => absurd ⟨0, hempty h0⟩ hillegal⟩

/-- Settles O23: the bytes are counted in BLEN, and they fit because the text fits TBUF. -/
theorem b32decCannotOverflowBbuf : Obligations.B32decCannotOverflowBbuf := by
  intro s t q hp hn hlegal ht p
  have hq := hlegal.le
  have hfit := decodedLength_le_bbufSize hp hn
  rw [toNat_blen_of_b32dec hn hlegal ht]
  exact ⟨by omega, by omega, hlegal.lastGroup⟩

/-- Settles O24: the decoder sees upper-cased text only, and no B32DEC writes TBUF (O9). -/
theorem b32decIgnoresLetterCase : Obligations.B32decIgnoresLetterCase := by
  intro s₁ s₂ t₁ t₂ hp hn hparams htlen htext h₁ h₂
  have hsame : base32Decode s₂.tbufText = base32Decode s₁.tbufText := by
    refine base32Decode_congr ?_
    rw [map_upcase_tbufText, map_upcase_tbufText, htlen]
    exact List.map_congr_left fun i hi => htext i (List.mem_range.1 hi)
  have hn₂ : s₂.tlen.toNat ≤ s₂.params.tbufSize := by rwa [htlen, hparams]
  have hkept := fun i (hi : i < s₁.params.tbufSize) =>
    And.intro (element_tbuf_of_b32dec hp h₁ hi) (element_tbuf_of_b32dec (hparams ▸ hp) h₂ (hparams ▸ hi))
  cases ho : base32Decode s₁.tbufText with
  | ok out =>
    cases (exec_b32dec_ok hn ho).symm.trans h₁
    cases (exec_b32dec_ok hn₂ (hsame.trans ho)).symm.trans h₂
    refine ⟨rfl, rfl, fun _ => ⟨rfl, fun j hj => ?_⟩, hkept⟩
    have hlt : j < out.length := hj.trans_le (Nat.mod_le _ _)
    rw [element_bbuf_commitBytes out s₁ hlt, element_bbuf_commitBytes out s₂ hlt]
  | error e =>
    cases (exec_b32dec_error hn ho).symm.trans h₁
    cases (exec_b32dec_error hn₂ (hsame.trans ho)).symm.trans h₂
    exact ⟨rfl, rfl, nofun, hkept⟩

/-- Settles O25: the text is legal and its bit stream is that of the bytes, so O20 gives each byte back bit by bit. -/
theorem b32decUndoesB32enc : Obligations.B32decUndoesB32enc := by
  intro s hp hn
  obtain ⟨t, ht, htframe, -, -⟩ := b32encWritesTheBase32Text s hp hn
  obtain ⟨htlen, hfit⟩ := b32encCannotOverflowTbuf s t hp hn ht
  have hparams := params_of_exec (by decide) ht
  obtain ⟨hle, hbytes, -⟩ := dataLength_bytes_padding s.blen.toNat
  obtain ⟨u, hu, huframe, hbits, -⟩ := b32decWritesTheDecodedBytes t _ (hparams ▸ hp) (hparams ▸ hfit)
    (legal_of_b32enc hp hn ht)
  rw [hbytes] at huframe hbits
  have hblen : u.blen = s.blen := (congrArg State.blen huframe).trans (by simp)
  refine ⟨t, u, ht, congrArg (·.status.err) htframe, hu, congrArg (·.status.err) huframe, hblen, fun k hk => ?_⟩
  have hbyte : u.element .bbuf k = s.bbufBytes.getD k 0x00 := eq_of_byteBit fun x hx => by
    have hdata : (8 * k + x) / 5 < dataLength s.blen.toNat := by omega
    have hchar : t.textChar ((8 * k + x) / 5) = base32Char (dataValue s.bbufBytes ((8 * k + x) / 5)) := by
      rw [textChar_of_b32enc hn ht (by omega), element_tbuf_of_b32enc hn ht (by omega), if_pos hdata]
    rw [hbits k x hk hx, base32Bit_of_dataValue hchar]
  rw [hbyte, getD_bbufBytes, if_pos hk]

/-- Settles O26: the text written is upper case, and behind the decoded bytes its bits are 0. -/
theorem reencodingNeedsCanonicalText : Obligations.ReencodingNeedsCanonicalText := by
  intro s t u q hp hn hlegal ht hu htlen hsame
  have hparams := params_of_exec (by decide) ht
  have hblen := toNat_blen_of_b32dec hn hlegal ht
  have hfit : t.blen.toNat ≤ t.params.bbufSize := by
    obtain ⟨-, h, -⟩ := b32decCannotOverflowBbuf s t q hp hn hlegal ht
    exact hparams ▸ h
  have hlen : s.tlen.toNat = 8 * ((t.blen.toNat + 4) / 5) := htlen ▸ toNat_tlen_of_b32enc (hparams ▸ hp) hfit hu
  have hupper : ∀ i < s.tlen.toNat, s.textChar i = s.element .tbuf i := by
    intro i hi
    rw [State.textChar, ← hsame i hi]
    exact textChar_of_b32enc hfit hu (hlen ▸ hi)
  refine ⟨hupper, fun x hx hxq => ?_⟩
  have hdata : x / 5 < q := by omega
  have hin : x / 5 < s.tlen.toNat := hdata.trans_le hlegal.le
  have hchar : s.textChar (x / 5) = base32Char (dataValue t.bbufBytes (x / 5)) := by
    have hwritten := element_tbuf_of_b32enc hfit hu (hlen ▸ hin)
    rw [hsame _ hin, ← hupper _ hin] at hwritten
    split_ifs at hwritten
    · exact hwritten
    · exact absurd (hwritten ▸ hlegal.mem hdata) padChar_not_mem
  rw [base32Bit_of_dataValue hchar]
  exact byteBit_of_le (by rwa [length_bbufBytes, hblen])

end

section
/-! PROOFS. 41_truncation.md: the checks of the full-code function one by one and what it reads, the digits of a code, the
completions of the five commands, and the statements settled by them. -/

namespace Sys2Proof.Machine

/-! ## The checks of the full-code function -/

/-- The checks before the digest is looked at all pass (spec/41_truncation.md R72). -/
def KeyAccepted (a : BitVec 3) (strict : Bool) (keylen : Word) : Prop :=
  keylen ≠ 0 ∧ (strict = true → 16 ≤ keylen.toNat ∧ a = 0)

theorem fullCode_unsupportedAlgorithm {a : BitVec 3} (h : 4 < a.toNat) (strict : Bool) (keylen : Word) (d : Nat → Byte) :
    fullCode a strict keylen d = .error .unsupportedAlgorithm := by
  simp only [fullCode, (digestLength_eq_none a).2 h]

section
variable {a : BitVec 3} {len : Nat} {strict : Bool} {keylen : Word} (hl : (a, len) ∈ algorithms)
include hl

theorem fullCode_invalidSecret (hk : keylen = 0 ∨ strict = true ∧ keylen.toNat < 16) (d : Nat → Byte) :
    fullCode a strict keylen d = .error .invalidSecret := by
  simp only [fullCode, digestLength_of_mem a len hl]
  rcases hk with h0 | hshort
  · exact if_pos h0
  · rw [if_pos hshort, ite_self]

theorem fullCode_noncompliant (hs : strict = true) (hk : 16 ≤ keylen.toNat) (ha : a ≠ 0) (d : Nat → Byte) :
    fullCode a strict keylen d = .error .noncompliant := by
  have h0 : keylen ≠ 0 := by
    rintro rfl
    exact absurd hk (by decide)
  have hlong : ¬ (strict = true ∧ keylen.toNat < 16) := fun h => by omega
  simp only [fullCode, digestLength_of_mem a len hl, if_neg h0, if_neg hlong, if_pos (And.intro hs ha)]

/-- A check fails whatever the digest is, or the key is accepted (spec/41_truncation.md R72). -/
theorem fullCode_checks : (∃ e ≠ ErrorKind.digestRange, ∀ d, fullCode a strict keylen d = .error e)
    ∨ KeyAccepted a strict keylen := by
  by_cases hk : keylen = 0 ∨ strict = true ∧ keylen.toNat < 16
  · exact .inl ⟨.invalidSecret, by decide, fullCode_invalidSecret hl hk⟩
  · obtain ⟨h0, hshort⟩ := not_or.1 hk
    by_cases hn : strict = true ∧ a ≠ 0
    · obtain ⟨hs, ha⟩ := hn
      exact .inl ⟨.noncompliant, by decide, fullCode_noncompliant hl hs (by simpa [hs] using hshort) ha⟩
    · exact .inr ⟨h0, fun hs => ⟨by simpa [hs] using hshort, by simpa [hs] using hn⟩⟩

/-- With the key accepted, the digest alone decides between a code and DIGEST_RANGE. -/
theorem fullCode_eq_digestRange_iff (d : Nat → Byte) : fullCode a strict keylen d = .error .digestRange ↔
    KeyAccepted a strict keylen ∧ len < (d (len - 1)).toNat % 16 + 4 := by
  constructor
  · intro h
    rcases fullCode_checks hl with ⟨e, hne, he⟩ | ⟨hk, hs⟩
    · cases (he d).symm.trans h
      exact absurd rfl hne
    · refine ⟨⟨hk, hs⟩, Nat.lt_of_not_le fun hle => ?_⟩
      cases (fullCode_ok a len strict keylen d hl hk hs hle).symm.trans h
  · rintro ⟨⟨hk, hs⟩, hr⟩
    exact fullCode_range a len strict keylen d hl hk hs hr

/-- A code comes only from an accepted key and an offset with four bytes behind it. -/
theorem offset_of_fullCode_ok {d : Nat → Byte} {off : BitVec 4} {fc : BitVec 31}
    (h : fullCode a strict keylen d = .ok (off, fc)) :
    off.toNat = (d (len - 1)).toNat % 16 ∧ off.toNat + 4 ≤ len := by
  rcases fullCode_checks hl with ⟨e, -, he⟩ | ⟨hk, hs⟩
  · cases (he d).symm.trans h
  · rcases Nat.lt_or_ge len ((d (len - 1)).toNat % 16 + 4) with hr | hr
    · cases (fullCode_range a len strict keylen d hl hk hs hr).symm.trans h
    · cases (fullCode_ok a len strict keylen d hl hk hs hr).symm.trans h
      have hoff : (BitVec.ofNat 4 ((d (len - 1)).toNat % 16)).toNat = (d (len - 1)).toNat % 16 := by
        rw [BitVec.toNat_ofNat, Nat.mod_mod]
      exact ⟨hoff, by omega⟩

/-- The full-code function reads the low nibble of D[L-1] and the four selected bytes (spec/41_truncation.md R73). -/
theorem fullCode_congr {d d' : Nat → Byte} (hoff : (d' (len - 1)).toNat % 16 = (d (len - 1)).toNat % 16)
    (hsel : ∀ i < 4, (d (len - 1)).toNat % 16 + 4 ≤ len →
      d' ((d (len - 1)).toNat % 16 + i) = d ((d (len - 1)).toNat % 16 + i)) :
    fullCode a strict keylen d' = fullCode a strict keylen d := by
  rcases fullCode_checks hl with ⟨e, -, he⟩ | ⟨hk, hs⟩
  · rw [he d', he d]
  · rcases Nat.lt_or_ge len ((d (len - 1)).toNat % 16 + 4) with hr | hr
    · rw [fullCode_range a len strict keylen d hl hk hs hr,
        fullCode_range a len strict keylen d' hl hk hs (hoff ▸ hr)]
    · have h0 := hsel 0 (by decide) hr
      have h1 := hsel 1 (by decide) hr
      have h2 := hsel 2 (by decide) hr
      have h3 := hsel 3 (by decide) hr
      rw [Nat.add_zero] at h0
      rw [fullCode_ok a len strict keylen d hl hk hs hr,
        fullCode_ok a len strict keylen d' hl hk hs (hoff ▸ hr), hoff, h0, h1, h2, h3]

/-- The model's offset and full code are the spec's (spec/41_truncation.md R72). -/
theorem fullCode_selected {s : State} (hk : KeyAccepted a strict keylen) (ho : s.selectedOffset len + 4 ≤ len) :
    fullCode a strict keylen s.digestByte = .ok (BitVec.ofNat 4 (s.selectedOffset len),
      BitVec.ofNat 31 (s.selectedCode (s.selectedOffset len))) := by
  obtain ⟨h0, hs⟩ := hk
  exact fullCode_ok a len strict keylen s.digestByte hl h0 hs ho

end

/-- The last nibble of SHA1's 20 bytes leaves room for four of them (spec/41_truncation.md R73). -/
theorem selectedOffset_sha1 (s : State) : s.selectedOffset 20 + 4 ≤ 20 := by
  have hlt : s.selectedOffset 20 < 16 := Nat.mod_lt _ (by decide)
  omega

/-- The full code fits its 31 bits (spec/41_truncation.md R73). -/
theorem toNat_selectedCode (s : State) (off : Nat) :
    (BitVec.ofNat 31 (s.selectedCode off)).toNat = s.selectedCode off := by
  rw [BitVec.toNat_ofNat]
  exact Nat.mod_mod ..

/-! ## CODE by its characters -/

/-- CODE made of 16 characters, where the characters are 0 from index 16 on. -/
theorem element_code_ofFn {s : State} {g : Nat → Byte} (hcode : s.code = Vector.ofFn fun i : Fin 16 => g i)
    (hz : ∀ i, 16 ≤ i → g i = 0x00) (i : Nat) : s.element .code i = g i := by
  refine (codeByte_ofFn s _ hcode i).trans ?_
  split_ifs with hi
  · rfl
  · exact (hz i (by omega)).symm

/-! ## Decimal codes -/

/-- Character `i` of the `d` digits of `v`, and zero behind them (spec/41_truncation.md R75). -/
def decimalChar (v d i : Nat) : Byte := if i < d then BitVec.ofNat 8 (0x30 + v / 10 ^ (d - 1 - i) % 10) else 0x00

theorem decimalChars_ok (fc : BitVec 31) {d : BitVec 4} (h6 : 6 ≤ d.toNat) (h9 : d.toNat ≤ 9) :
    decimalChars fc d = .ok (Vector.ofFn fun i : Fin 16 => decimalChar (fc.toNat % 10 ^ d.toNat) d.toNat i) :=
  if_neg (by omega)

theorem decimalChars_invalid (fc : BitVec 31) {d : BitVec 4} (h : d.toNat < 6 ∨ 9 < d.toNat) :
    decimalChars fc d = .error .invalidLength := if_pos h

/-- The one error and the one success of a digit count (spec/41_truncation.md R75). -/
theorem decimalChars_cases (fc : BitVec 31) (d : BitVec 4) :
    decimalChars fc d = .error .invalidLength ∨ ∃ c, decimalChars fc d = .ok c := by
  by_cases h : d.toNat < 6 ∨ 9 < d.toNat
  · exact .inl (decimalChars_invalid fc h)
  · exact .inr ⟨_, decimalChars_ok fc (by omega) (by omega)⟩

/-- The value of a digit character. -/
theorem toNat_decimalChar {v d i : Nat} (h : i < d) :
    (decimalChar v d i).toNat = 0x30 + v / 10 ^ (d - 1 - i) % 10 := by
  rw [decimalChar, if_pos h, BitVec.toNat_ofNat]
  omega

/-- Read from the front, the first `k` of `d` digits are the number without its other digits. -/
theorem foldl_digits {v d k : Nat} (hv : v < 10 ^ d) (hk : k ≤ d) :
    (List.range k).foldl (fun acc i => acc * 10 + v / 10 ^ (d - 1 - i) % 10) 0 = v / 10 ^ (d - k) := by
  induction k with
  | zero => exact (Nat.div_eq_of_lt hv).symm
  | succ k ih =>
    have hpow : v / 10 ^ (d - k) = v / 10 ^ (d - 1 - k) / 10 := by
      rw [Nat.div_div_eq_div_mul, ← pow_succ, show d - 1 - k + 1 = d - k by omega]
    rw [List.range_succ, List.foldl_append, ih (by omega), hpow, show d - (k + 1) = d - 1 - k by omega]
    exact Nat.div_add_mod' _ 10

/-- CODE as DECIMAL and HOTP commit it is the spec's padded decimal text (spec/41_truncation.md R75). -/
theorem decimalText_of_code {s : State} {d : BitVec 4} {v : Nat} (hv : v < 10 ^ d.toNat)
    (hcode : s.code = Vector.ofFn fun i : Fin 16 => decimalChar v d.toNat i) (hlen : s.codelen = d.setWidth 5) :
    DecimalText s d.toNat v := by
  have helem := element_code_ofFn hcode fun i hi => if_neg (by omega)
  refine ⟨?_, fun i hi => ?_, ?_, fun i hi => ?_⟩
  · rw [hlen, BitVec.toNat_setWidth]
    omega
  · rw [helem, toNat_decimalChar hi]
    omega
  · have hdigits := foldl_digits hv (le_refl d.toNat)
    rw [Nat.sub_self, pow_zero, Nat.div_one] at hdigits
    refine Eq.trans (List.foldl_ext _ _ _ fun acc i hi => ?_) hdigits
    rw [helem, toNat_decimalChar (List.mem_range.1 hi), Nat.add_sub_cancel_left]
  · rw [helem]
    exact if_neg (by omega)

/-! ## Steam codes -/

/-- CODE as STEAM and STEAMCODE commit it is the spec's Steam text (spec/41_truncation.md R77, R78). -/
theorem steamText_of_code {s : State} {fc : BitVec 31} {f : Nat} (hf : fc.toNat = f) (hcode : s.code = steamChars fc)
    (hlen : s.codelen = 5) : SteamText s f := by
  subst hf
  have hbehind : ∀ i, 5 ≤ i → (steamDigits 5 fc.toNat).getD i 0x00 = 0x00 := fun i hi =>
    List.getD_eq_default _ _ (by rwa [length_steamDigits])
  have helem := element_code_ofFn (g := fun i => (steamDigits 5 fc.toNat).getD i 0x00) hcode fun i hi =>
    hbehind i (le_trans (by decide) hi)
  refine ⟨by rw [hlen]; rfl, fun i hi => ?_, fun i hi => ?_⟩
  · rw [helem, getD_steamDigits 5 _ _ hi]
  · rw [helem, hbehind i hi]

/-- The first `n` base-26 digits see the number modulo 26^n. -/
theorem steamDigits_mod (n : Nat) : ∀ f, steamDigits n (f % 26 ^ n) = steamDigits n f := by
  induction n with
  | zero => intro f; rfl
  | succ n ih =>
    intro f
    have hlast : f % 26 ^ (n + 1) % 26 = f % 26 := Nat.mod_mod_of_dvd f (dvd_pow_self 26 n.succ_ne_zero)
    have hrest : f % 26 ^ (n + 1) / 26 = f / 26 % 26 ^ n := by rw [pow_succ', Nat.mod_mul_right_div_self]
    rw [steamDigits, steamDigits, hlast, hrest, ih]

theorem steamChars_congr {fc fc' : BitVec 31} (h : fc'.toNat % 26 ^ 5 = fc.toNat % 26 ^ 5) :
    steamChars fc' = steamChars fc := by
  rw [steamChars, steamChars, ← steamDigits_mod 5 fc'.toNat, h, steamDigits_mod]

/-! ## The completions -/

/-- A command whose outcome is a success completes with its commits. -/
theorem exec_of_outcome_ok {i : Instr} {s t : State} (hi : i ≠ .sreset) (h : outcome i s = .ok t) :
    exec i s = .next (succeed t) := by
  rw [exec_eq_complete i s hi, h, complete_ok]

/-- A command whose outcome is an error records it and changes nothing else. -/
theorem exec_of_outcome_error {i : Instr} {s : State} {e : ErrorKind} (hi : i ≠ .sreset) (h : outcome i s = .error e) :
    exec i s = .next (raise e s) := by
  rw [exec_eq_complete i s hi, h, complete_error]

section
variable {s : State} {e : ErrorKind} {off : BitVec 4} {fc : BitVec 31} {c : Vector Byte 16}

theorem exec_trunc_ok (h : fullCode s.ctrl.alg s.ctrl.strict s.keylen s.digestByte = .ok (off, fc)) :
    exec .trunc s = .next (succeed (commitFullCode off fc s)) :=
  exec_of_outcome_ok (by decide) (by rw [outcome, performTrunc, h]; rfl)

theorem exec_trunc_error (h : fullCode s.ctrl.alg s.ctrl.strict s.keylen s.digestByte = .error e) :
    exec .trunc s = .next (raise e s) :=
  exec_of_outcome_error (by decide) (by rw [outcome, performTrunc, h]; rfl)

theorem exec_decimal_ok (h : decimalChars s.fullcode s.ctrl.digits = .ok c) :
    exec .decimal s = .next (succeed (commitCode c (s.ctrl.digits.setWidth 5) s)) :=
  exec_of_outcome_ok (by decide) (by rw [outcome, performDecimal, h]; rfl)

theorem exec_decimal_error (h : decimalChars s.fullcode s.ctrl.digits = .error e) :
    exec .decimal s = .next (raise e s) :=
  exec_of_outcome_error (by decide) (by rw [outcome, performDecimal, h]; rfl)

/-- STEAM has no check to fail (spec/41_truncation.md R78). -/
theorem exec_steam (s : State) : exec .steam s = .next (succeed (commitCode (steamChars s.fullcode) 5 s)) := rfl

theorem exec_hotp_ok (h : fullCode s.ctrl.alg s.ctrl.strict s.keylen s.digestByte = .ok (off, fc))
    (hc : decimalChars fc s.ctrl.digits = .ok c) :
    exec .hotp s = .next (succeed (commitCode c (s.ctrl.digits.setWidth 5) (commitFullCode off fc s))) :=
  exec_of_outcome_ok (by decide) (by rw [outcome, performHotp, h]; simp only [hc]; rfl)

/-- HOTP's error behind a successful full-code function (spec/41_truncation.md R76). -/
theorem exec_hotp_digits_error (h : fullCode s.ctrl.alg s.ctrl.strict s.keylen s.digestByte = .ok (off, fc))
    (he : decimalChars fc s.ctrl.digits = .error e) : exec .hotp s = .next (raise e s) :=
  exec_of_outcome_error (by decide) (by rw [outcome, performHotp, h]; simp only [he]; rfl)

theorem exec_hotp_error (h : fullCode s.ctrl.alg s.ctrl.strict s.keylen s.digestByte = .error e) :
    exec .hotp s = .next (raise e s) :=
  exec_of_outcome_error (by decide) (by simp only [outcome, performHotp, h])

theorem exec_steamcode_ok (h : fullCode 0 s.ctrl.strict s.keylen s.digestByte = .ok (off, fc)) :
    exec .steamcode s = .next (succeed (commitCode (steamChars fc) 5 (commitFullCode off fc s))) :=
  exec_of_outcome_ok (by decide) (by rw [outcome, performSteamcode, h]; rfl)

theorem exec_steamcode_error (h : fullCode 0 s.ctrl.strict s.keylen s.digestByte = .error e) :
    exec .steamcode s = .next (raise e s) :=
  exec_of_outcome_error (by decide) (by rw [outcome, performSteamcode, h]; rfl)

end

/-- SHA1 is an algorithm of 20 bytes (spec/41_truncation.md R70). -/
theorem sha1_mem_algorithms : ((0 : BitVec 3), 20) ∈ algorithms := by decide

end Sys2Proof.Machine

open Sys2Proof Sys2Proof.Machine

/-- Settles O27: the full-code function succeeds with the spec's offset and code. -/
theorem truncWritesOffsetAndFullCode : Obligations.TruncWritesOffsetAndFullCode := fun _ _ hl hk hs ho =>
  exec_trunc_ok (fullCode_selected hl ⟨hk, hs⟩ ho)

/-- Settles O28: TRUNC and HOTP raise the full-code function's error, and each check has its lemma. -/
theorem fullCodeReportsTheFirstFailingCheck : Obligations.FullCodeReportsTheFirstFailingCheck := by
  intro s i hi fails
  have hraise : ∀ e, fullCode s.ctrl.alg s.ctrl.strict s.keylen s.digestByte = .error e → fails (errorCode e) := by
    intro e he
    rcases hi with rfl | rfl
    · exact exec_trunc_error he
    · exact exec_hotp_error he
  refine ⟨fun ha => ?_, fun ha hk => ?_, fun ha hs hk => ?_, fun ha hs hk hn => ?_, fun len hl hk hs hr => ?_⟩
  · exact hraise _ (fullCode_unsupportedAlgorithm ha ..)
  · obtain ⟨len, hl⟩ := mem_algorithms _ ha
    exact hraise _ (fullCode_invalidSecret hl (.inl hk) _)
  · obtain ⟨len, hl⟩ := mem_algorithms _ ha
    exact hraise _ (fullCode_invalidSecret hl (.inr ⟨hs, hk⟩) _)
  · obtain ⟨len, hl⟩ := mem_algorithms _ ha
    exact hraise _ (fullCode_noncompliant hl hs hk hn _)
  · exact hraise _ (fullCode_range _ len _ _ _ hl hk hs hr)

/-- Settles O29: an offset is at most 15, so only MD5's 16 bytes can end before the four selected ones. -/
theorem fullCodeReadsOnlyTheSelectedBytes : Obligations.FullCodeReadsOnlyTheSelectedBytes := by
  intro a len strict keylen d d' hl
  refine ⟨fun off fc h => ?_, fun h => ?_, fun ha hk hs hr => ?_, fullCode_congr hl⟩
  · obtain ⟨hoff, hfit⟩ := offset_of_fullCode_ok hl h
    have hlt := off.isLt
    exact ⟨hoff, fc.isLt, by omega, by omega⟩
  · obtain ⟨-, hr⟩ := (fullCode_eq_digestRange_iff hl d).1 h
    obtain ⟨-, -, hmd5⟩ := len_of_mem_algorithms a len hl
    obtain ⟨ha, rfl⟩ := hmd5 (by omega)
    exact ⟨ha, Nat.lt_of_add_lt_add_right (show 12 + 4 < (d 15).toNat % 16 + 4 from hr)⟩
  · subst ha hs
    exact (fullCode_eq_digestRange_iff (len := 16) (by decide) d).2 ⟨⟨hk, nofun⟩, Nat.add_lt_add_right hr 4⟩

/-- Settles O30: the digits of a valid count, read from the front, are FULLCODE mod 10^d. -/
theorem decimalWritesThePaddedDigits : Obligations.DecimalWritesThePaddedDigits := by
  refine fun s => ⟨fun h6 h9 => ?_, fun h => exec_decimal_error (decimalChars_invalid s.fullcode h)⟩
  refine ⟨_, exec_decimal_ok (decimalChars_ok s.fullcode h6 h9), ?_, ?_⟩
  · rw [BitVec.ofNat_toNat]
    rfl
  · exact decimalText_of_code (Nat.mod_lt _ (by positivity)) rfl rfl

/-- Settles O31: CODE is the five Steam characters, which see FULLCODE modulo 26^5. -/
theorem steamWritesFiveCharacters : Obligations.SteamWritesFiveCharacters := fun s =>
  ⟨⟨_, exec_steam s, rfl, steamText_of_code rfl rfl rfl⟩, fun _ h => steamChars_congr h⟩

/-- Settles O32: the full-code function succeeds as for TRUNC, and its code has the digits DECIMAL would write. -/
theorem hotpWritesCodeOfTheDigest : Obligations.HotpWritesCodeOfTheDigest := by
  intro s len hl hk hs ho h6 h9
  have hcode := decimalChars_ok (BitVec.ofNat 31 (s.selectedCode (s.selectedOffset len))) h6 h9
  rw [toNat_selectedCode] at hcode
  refine ⟨_, exec_hotp_ok (fullCode_selected hl ⟨hk, hs⟩ ho) hcode, ?_, ?_⟩
  · rw [BitVec.ofNat_toNat]
    rfl
  · exact decimalText_of_code (Nat.mod_lt _ (by positivity)) rfl rfl

/-- Settles O33, by the outcomes of the full-code function and of the digits. -/
theorem hotpIsTruncThenDecimal : Obligations.HotpIsTruncThenDecimal := by
  intro s t ht
  cases hf : fullCode s.ctrl.alg s.ctrl.strict s.keylen s.digestByte with
  | error e =>
    cases (exec_trunc_error hf).symm.trans ht
    exact ⟨fun _ => exec_hotp_error hf, nofun⟩
  | ok r =>
    obtain ⟨off, fc⟩ := r
    cases (exec_trunc_ok hf).symm.trans ht
    refine ⟨nofun, fun _ u hu => ?_⟩
    rcases decimalChars_cases fc s.ctrl.digits with he | ⟨c, hc⟩
    · cases (exec_decimal_error (s := succeed (commitFullCode off fc s)) he).symm.trans hu
      exact ⟨nofun, fun _ => exec_hotp_digits_error hf he⟩
    · cases (exec_decimal_ok (s := succeed (commitFullCode off fc s)) hc).symm.trans hu
      exact ⟨fun _ => exec_hotp_ok hf hc, nofun⟩

/-- Settles O34: SHA1 is supported and compliant, and its digest is long enough, so the key checks alone can fail. -/
theorem steamcodeWritesCodeOfTheSha1Digest : Obligations.SteamcodeWritesCodeOfTheSha1Digest := by
  refine fun s => ⟨fun hk hs => ?_, fun h => exec_steamcode_error (fullCode_invalidSecret sha1_mem_algorithms h _)⟩
  have haccepted : KeyAccepted 0 s.ctrl.strict s.keylen := ⟨hk, fun h => ⟨hs h, rfl⟩⟩
  refine ⟨_, exec_steamcode_ok (fullCode_selected sha1_mem_algorithms haccepted (selectedOffset_sha1 s)), rfl, ?_⟩
  exact steamText_of_code (toNat_selectedCode s _) rfl rfl

/-- Settles O35: the full-code function of SHA1 reads no digest byte from index 20 on. -/
theorem steamcodeDependsOnItsOperandsOnly : Obligations.SteamcodeDependsOnItsOperandsOnly := by
  intro s₁ s₂ t₁ t₂ hk hs hd h₁ h₂
  have hsame : fullCode 0 s₂.ctrl.strict s₂.keylen s₂.digestByte = fullCode 0 s₁.ctrl.strict s₁.keylen s₁.digestByte := by
    rw [hk, hs]
    refine fullCode_congr sha1_mem_algorithms ?_ fun i hi hfit => hd _ (by omega)
    exact congrArg (·.toNat % 16) (hd 19 (by decide))
  cases hf : fullCode 0 s₁.ctrl.strict s₁.keylen s₁.digestByte with
  | error e =>
    cases (exec_steamcode_error hf).symm.trans h₁
    cases (exec_steamcode_error (hsame.trans hf)).symm.trans h₂
    exact ⟨rfl, rfl, nofun⟩
  | ok r =>
    obtain ⟨off, fc⟩ := r
    cases (exec_steamcode_ok hf).symm.trans h₁
    cases (exec_steamcode_ok (hsame.trans hf)).symm.trans h₂
    exact ⟨rfl, rfl, fun _ => ⟨rfl, rfl, rfl, rfl⟩⟩

end

section
/-! PROOFS. 42_control.md: the completion of NOP, what SRESET keeps, the two kinds of write to CMD, and the statements
settled by them. -/

namespace Sys2Proof.Machine

/-! ## NOP and SRESET at their meaning -/

/-- NOP is a completion without commits (spec/42_control.md R80). -/
theorem exec_nop (s : State) : exec .nop s = .next (succeed s) := exec_of_outcome_ok (by decide) rfl

/-- SRESET keeps DIGEST, BBUF and TBUF, the written bytes and the free ones (spec/42_control.md R81). -/
@[simp] theorem ram_softReset (s : State) (a : Nat) : (softReset s).ram a = s.ram a := rfl

/-- Reset leaves SHA1 in CTRL and 0 in KEYLEN, so a TRUNC without a new key fails (spec/42_control.md R81). -/
theorem exec_trunc_softReset (s : State) : exec .trunc (softReset s) = .next (raise .invalidSecret (softReset s)) :=
  exec_trunc_error (fullCode_invalidSecret sha1_mem_algorithms (.inl rfl) _)

/-! ## Writes to CMD -/

/-- SRESET's word is performed at the write, on top of the OKAY response (spec/42_control.md R81). -/
theorem step_write_sreset (s : State) :
    step (s.issuing (.write 0x00C .word 0x000000FF)) = exec .sreset (s.answered (.write .okay)) :=
  (step_write_reg s _ .cmd rfl).trans (writeReg_cmd_sreset _)

/-- Every other word is accepted when idle and dropped while BUSY (spec/60_exceptions.md R86,
spec/70_reset_and_hazards.md R107). -/
theorem step_write_cmd (s : State) {w : Word} (hw : w ≠ 0x000000FF) :
    step (s.issuing (.write 0x00C .word w)) =
      .next (if s.status.busy then dropWrite (s.answered (.write .okay)) else accept w (s.answered (.write .okay))) :=
  (step_write_reg s w .cmd rfl).trans (writeReg_cmd w _ hw)

end Sys2Proof.Machine

open Sys2Proof Sys2Proof.Machine

/-- Settles O14: SRESET's write is the soft reset on top of the OKAY response, and TRUNC then has no key. -/
theorem sresetWriteResetsAtOnce : Obligations.SresetWriteResetsAtOnce := by
  intro s
  have hstep := step_write_sreset s
  refine ⟨hstep, ⟨softReset (s.answered (.write .okay)), hstep.trans (exec_sreset _), registersReset_softReset _, rfl, rfl,
    ram_softReset (s.answered (.write .okay)), ?trunc⟩, fun w hw => step_write_cmd s hw⟩
  case trunc => exact ⟨_, exec_trunc_softReset (s.answered (.write .okay)), rfl⟩

/-- Settles O12: the completion without commits. -/
theorem nopChangesOnlyStatus : Obligations.NopChangesOnlyStatus := exec_nop

/-- Settles O13: the soft reset, with what it keeps. -/
theorem sresetCompletesAndKeepsTheWindows : Obligations.SresetCompletesAndKeepsTheWindows := fun s =>
  ⟨softReset s, exec_sreset s, registersReset_softReset s, rfl, rfl, rfl, rfl, rfl, rfl, rfl, ram_softReset s⟩

end

section
/-! PROOFS. 60_exceptions.md: which errors each command can raise, the interrupt output after each operation, and the
statements settled by them. -/

namespace Sys2Proof.Machine

/-! ## The errors of each command -/

/-- The decoder fails by one of its four format checks (spec/40_base32.md R66). -/
theorem base32Decode_error {text : List Byte} {e : ErrorKind} (h : base32Decode text = .error e) :
    e ∈ [ErrorKind.formatLength, .formatChar, .formatPadpos, .formatPad] := by
  simp only [base32Decode] at h
  split_ifs at h <;> cases h <;> decide

/-- A digit count is refused by INVALID_LENGTH alone (spec/41_truncation.md R75). -/
theorem decimalChars_error {fc : BitVec 31} {d : BitVec 4} {e : ErrorKind} (h : decimalChars fc d = .error e) :
    e = .invalidLength := by
  rcases decimalChars_cases fc d with he | ⟨c, hc⟩
  · cases he.symm.trans h
    rfl
  · cases hc.symm.trans h

/-- With SHA1 forced, strict mode has nothing to object to and every offset has four bytes behind it, so only the secret can
be wrong (spec/41_truncation.md R79). -/
theorem fullCode_sha1_error {strict : Bool} {keylen : Word} {d : Nat → Byte} {e : ErrorKind}
    (h : fullCode 0 strict keylen d = .error e) : e = .invalidSecret := by
  by_cases hk : keylen = 0 ∨ strict = true ∧ keylen.toNat < 16
  · cases (fullCode_invalidSecret sha1_mem_algorithms hk d).symm.trans h
    rfl
  · obtain ⟨hsecret, hlong⟩ := not_or.1 hk
    have hstrict : strict = true → 16 ≤ keylen.toNat ∧ (0 : BitVec 3) = 0 := fun hs => ⟨by simpa [hs] using hlong, rfl⟩
    cases (fullCode_ok 0 20 strict keylen d sha1_mem_algorithms hsecret hstrict (by omega)).symm.trans h

/-- The error table read by its commands: the errors a command can raise (spec/60_exceptions.md R85). -/
def errorsOf : Instr → List ErrorKind
  | .b32enc => [.bufferLength]
  | .b32dec => [.bufferLength, .formatLength, .formatChar, .formatPadpos, .formatPad]
  | .trunc => [.unsupportedAlgorithm, .invalidSecret, .noncompliant, .digestRange]
  | .decimal => [.invalidLength]
  | .hotp => [.unsupportedAlgorithm, .invalidSecret, .noncompliant, .digestRange, .invalidLength]
  | .steamcode => [.invalidSecret]
  | .nop | .steam | .sreset => []

/-- The inversion of a failure (spec/60_exceptions.md R85, R90). -/
theorem outcome_error {i : Instr} {s : State} {e : ErrorKind} (h : outcome i s = .error e) : e ∈ errorsOf i := by
  cases i with
  | nop | steam | sreset => cases h
  | b32enc =>
    simp only [outcome, performB32enc] at h
    split_ifs at h
    cases h
    decide
  | b32dec =>
    simp only [outcome, performB32dec] at h
    split_ifs at h
    · cases h
      decide
    · exact List.mem_cons_of_mem _ (base32Decode_error (map_error h))
  | trunc => exact fullCode_error _ _ _ _ e (map_error h)
  | decimal => exact List.mem_singleton.2 (decimalChars_error (map_error h))
  | hotp =>
    simp only [outcome, performHotp] at h
    split at h
    · next e' hf =>
      cases h
      exact List.mem_append_left [ErrorKind.invalidLength] (fullCode_error _ _ _ _ _ hf)
    · next off fc hf =>
      cases decimalChars_error (map_error h)
      decide
  | steamcode => exact List.mem_singleton.2 (fullCode_sha1_error (map_error h))

/-- The error table read by its codes: the commands a code can come from (spec/60_exceptions.md R85). -/
def errorTable : List (Byte × List Instr) :=
  [(0x02, [.trunc, .hotp]), (0x03, [.trunc, .hotp, .steamcode]), (0x04, [.trunc, .hotp]), (0x05, [.trunc, .hotp]),
    (0x06, [.decimal, .hotp]), (0x10, [.b32dec]), (0x11, [.b32dec]), (0x12, [.b32dec]), (0x13, [.b32dec]),
    (0x20, [.b32enc, .b32dec])]

/-- Read by its codes, the table has every error of every command. -/
theorem errorTable_lists {i : Instr} {e : ErrorKind} (h : e ∈ errorsOf i) :
    ∃ r ∈ errorTable, errorCode e = r.1 ∧ i ∈ r.2 := by
  revert e
  cases i <;> decide

/-! ## The interrupt output -/

theorem irq_eq_true_iff (s : State) : s.irq = true ↔ s.ctrl.irqEn = true ∧ s.status.done = true := Bool.and_eq_true_iff

/-- With DONE clear, irq is low (spec/60_exceptions.md R92). -/
theorem irq_of_not_done {s : State} (h : s.status.done = false) : s.irq = false := by rw [State.irq, h, Bool.and_false]

/-- With IRQ_EN clear, irq is low (spec/60_exceptions.md R92). -/
theorem irq_of_disabled {s : State} (h : s.ctrl.irqEn = false) : s.irq = false := by rw [State.irq, h, Bool.false_and]

@[simp] theorem irq_succeed (s : State) : (succeed s).irq = s.ctrl.irqEn := Bool.and_true _

@[simp] theorem irq_raise (e : ErrorKind) (s : State) : (raise e s).irq = s.ctrl.irqEn := Bool.and_true _

@[simp] theorem irq_accept (w : Word) (s : State) : (accept w s).irq = false := irq_of_not_done rfl

@[simp] theorem irq_softReset (s : State) : (softReset s).irq = false := irq_of_not_done rfl

@[simp] theorem irq_releaseReset (s : State) : (releaseReset s).irq = false := irq_of_not_done rfl

theorem irq_acknowledge {v : Word} (h : v.getLsbD 1 = true) (s : State) : (acknowledge v s).irq = false :=
  irq_of_not_done <| by simp [clearStatus, h]

/-- Every command sets DONE and keeps CTRL (spec/60_exceptions.md R87, R92). -/
theorem irq_of_exec {i : Instr} {s t : State} (hi : i ≠ .sreset) (h : exec i s = .next t) : t.irq = s.ctrl.irqEn := by
  rcases exec_cases hi h with ⟨u, hc, rfl⟩ | ⟨e, -, rfl⟩
  · obtain ⟨-, hctrl, -⟩ := commits_inputs hc
    rw [irq_succeed, hctrl]
  · exact irq_raise e s

/-- The completion of a command or of an illegal word (spec/60_exceptions.md R92). -/
theorem irq_of_completeLatched {s t : State} (hw : s.latched ≠ 0x000000FF) (h : completeLatched s = .next t) :
    t.irq = s.ctrl.irqEn := by
  rcases completeLatched_cases s with ⟨i, hd, hx⟩ | hx <;> rw [hx] at h
  · refine irq_of_exec ?_ h
    rintro rfl
    exact hw ((decodeWord_eq_ok_iff _ _).1 hd)
  · cases h
    exact irq_raise _ s

end Sys2Proof.Machine

open Sys2Proof Sys2Proof.Machine

/-- Settles O8: a success sets STATUS and its commits keep WOVR; a failure is the recorded error. -/
theorem completionSucceedsOrOnlyRecordsAnError : Obligations.CompletionSucceedsOrOnlyRecordsAnError := by
  intro s i hi
  obtain ⟨t, ht⟩ := exec_next i s
  refine ⟨t, ht, ?_⟩
  rcases exec_cases hi ht with ⟨u, hc, rfl⟩ | ⟨e, -, rfl⟩
  · obtain ⟨-, -, -, -, -, -, -, -, -, hwovr⟩ := commits_inputs hc
    left
    rw [succeed_status, successStatus, hwovr]
  · exact .inr ⟨e, rfl⟩

/-- Settles O10: ERR is left by a failure only, and each error of a command has its row in the table. -/
theorem eachErrorCodeComesFromItsCommands : Obligations.EachErrorCodeComesFromItsCommands := by
  intro s t i hi h herr
  rcases exec_cases hi h with ⟨u, -, rfl⟩ | ⟨e, he, rfl⟩
  · cases herr
  · exact errorTable_lists (outcome_error he)

/-- Settles O11: completions set DONE, and each of the five causes clears DONE or IRQ_EN. -/
theorem interruptFollowsDoneAndEnable : Obligations.InterruptFollowsDoneAndEnable := by
  intro s
  refine ⟨irq_eq_true_iff s, fun t => irq_of_completeLatched, fun v t hv h => ?status, fun v t hv hb h => ?ctrl,
    fun w t hb h => ?cmd, fun t h => ?sreset, fun rest t hr hs h => ?pin⟩
  case status =>
    cases (step_write_reg s v .status rfl).symm.trans h
    exact irq_acknowledge hv _
  case ctrl =>
    rw [step_write_reg s v .ctrl rfl, writeReg, storeInput_idle _ (s.answered (.write .okay)) hb] at h
    cases h
    exact irq_of_disabled hv
  case cmd =>
    by_cases hw : w = 0x000000FF
    · subst hw
      cases (step_write_sreset s).symm.trans h
      exact irq_softReset _
    · rw [step_write_cmd s hw, hb] at h
      cases h
      exact irq_accept w _
  case sreset =>
    cases (step_write_sreset s).symm.trans h
    exact irq_softReset _
  case pin =>
    cases (step_resetHigh s rest hs hr).symm.trans h
    exact irq_releaseReset _

/-- Settles O5: an enabled engine turn completes the latched word, which decodes to the command. -/
theorem engineStepRunsTheLatchedCommand : Obligations.EngineStepRunsTheLatchedCommand := by
  intro s
  refine ⟨fun i hr hb hd => ⟨fun rest hs => ?scheduled, fun hs => ?default⟩, fun rest hb hs => ?idle⟩
  case scheduled => exact (step_engine s rest hs hr hb).trans (completeLatched_ok _ i hd)
  case default => exact (step_default_engine s hs hr hb).trans (completeLatched_ok s i hd)
  case idle => exact step_engine_idle s rest hs (.inr hb)

/-- Settles O7: the write is accepted when idle, dropped while BUSY, and performed at once if it is SRESET's. -/
theorem idleCommandWriteIsAccepted : Obligations.IdleCommandWriteIsAccepted := by
  intro s w
  refine ⟨fun hb hw => ?idle, fun hb hw => ?busy, fun hw => ?sreset⟩
  case idle => exact ⟨accept w (s.answered (.write .okay)), by rw [step_write_cmd s hw, hb]; rfl, rfl, irq_accept w _⟩
  case busy => exact ⟨dropWrite (s.answered (.write .okay)), by rw [step_write_cmd s hw, hb]; rfl, rfl, hb⟩
  case sreset =>
    subst hw
    exact step_write_sreset s

end

section
/-! PROOFS. 70_reset_and_hazards.md: the turns by the level of `rst_n`, what a run keeps, the turns a run has left, the
draw of the unspecified bytes, writes while BUSY, and the statements settled by them. -/

namespace Sys2Proof.Machine

/-! ## The pin and the schedule -/

/-- The level of `rst_n` after a turn (spec/70_reset_and_hazards.md R102). -/
def pinAfter (high : Bool) : Turn → Bool
  | .host | .engine => high
  | .resetLow => false
  | .resetHigh => true

/-- The host's duty, turn by turn. -/
theorem quietInReset_cons_iff (high : Bool) (t : Turn) (ts : List Turn) :
    quietInReset high (t :: ts) = true ↔ (t = .host → high = true) ∧ quietInReset (pinAfter high t) ts = true := by
  cases t <;> simp [quietInReset, pinAfter]

/-- A turn that is no host turn in reset answers a next state, with the pin at the turn's level. -/
theorem takeTurn_keeps (t : Turn) (s : State) (hq : t = .host → s.rstN = true) :
    ∃ u, takeTurn t s = .next u ∧ u.rstN = pinAfter s.rstN t ∧ u.schedule = s.schedule := by
  cases t with
  | host => exact hostTurn_keeps s (hq rfl)
  | engine => exact engineTurn_keeps s
  | resetLow =>
    refine ⟨_, rfl, ?_⟩
    split_ifs with hr
    · exact ⟨rfl, rfl⟩
    · exact ⟨Bool.eq_false_iff.2 hr, rfl⟩
  | resetHigh =>
    refine ⟨_, rfl, ?_⟩
    split_ifs with hr
    · exact ⟨hr, rfl⟩
    · exact ⟨rfl, rfl⟩

/-- With nothing scheduled the step answers a next state with the pin as before, because in reset nobody moves (log 6). -/
theorem defaultTurn_keeps (s : State) : ∃ t, defaultTurn s = .next t ∧ t.rstN = s.rstN ∧ t.schedule = s.schedule := by
  unfold defaultTurn
  split_ifs with hr hb
  · exact ⟨s, rfl, rfl, rfl⟩
  · exact engineTurn_keeps s
  · exact hostTurn_keeps s (by simpa using hr)

/-- The falling edge is a soft reset with the pin low (log 5). -/
theorem registersReset_assertReset (s : State) : RegistersReset (assertReset s) :=
  registersReset_softReset (s.setPin false)

/-- The rising edge is a soft reset with the pin high and a new draw (spec/70_reset_and_hazards.md R102). -/
theorem registersReset_releaseReset (s : State) : RegistersReset (releaseReset s) :=
  registersReset_softReset { s with rstN := true, mem := [], draw := s.draw + 1 }

/-! ## Runs -/

theorem run_succ {s t : State} (k : Nat) (h : step s = .next t) : core.run (k + 1) s = core.run k t := by
  have hstep : core.step s = .next t := h
  simp only [Host.Core.run, hstep]

/-- What every step answers and keeps, every run answers and keeps. -/
theorem run_keeps {P : State → Prop} (h : ∀ s, P s → ∃ t, step s = .next t ∧ P t) (k : Nat) :
    ∀ s, P s → ∃ t, core.run k s = .next t ∧ P t := by
  induction k with
  | zero => exact fun s hs => ⟨s, rfl, hs⟩
  | succ k ih =>
    intro s hs
    obtain ⟨t, ht, hP⟩ := h s hs
    obtain ⟨u, hu, hQ⟩ := ih t hP
    exact ⟨u, (run_succ k ht).trans hu, hQ⟩

/-! ## The turns a run has left -/

/-- The turns that the agents' work can still take: two for each host operation, which may start a command, and one for
the pending command (spec/70_reset_and_hazards.md R110). -/
def State.work (s : State) : Nat := 2 * s.host.length + s.status.busy.toNat

/-- With no turn scheduled and no work left, the run has ended (spec/70_reset_and_hazards.md R111). -/
theorem finished_of_no_work {s : State} (h : s.work = 0) : s.finished = true := by
  obtain ⟨hhost, hbusy⟩ := Nat.add_eq_zero_iff.1 h
  have hnil : s.host = [] := List.eq_nil_of_length_eq_zero (by omega)
  have hidle : s.status.busy = false := Bool.toNat_eq_zero.1 hbusy
  rw [State.finished, hnil, hidle]
  rfl

theorem writeEffect_host {s t : State} (h : WriteEffect s t) : t.host = s.host := by
  cases h <;> rfl

/-- Every command ends with BUSY 0 and leaves the host's operations (spec/60_exceptions.md R87). -/
theorem exec_finishes {i : Instr} {s t : State} (h : exec i s = .next t) :
    t.host = s.host ∧ t.status.busy = false := by
  by_cases hi : i = .sreset
  · subst hi
    cases h
    exact ⟨rfl, rfl⟩
  · rcases exec_cases hi h with ⟨u, hc, rfl⟩ | ⟨e, -, rfl⟩
    · obtain ⟨-, -, -, -, -, -, hhost, -⟩ := commits_inputs hc
      exact ⟨hhost, rfl⟩
    · exact ⟨rfl, rfl⟩

/-- A pending word, legal or not, completes with BUSY 0 and leaves the host's operations (spec/30_encoding.md R54). -/
theorem completeLatched_finishes {s t : State} (h : completeLatched s = .next t) :
    t.host = s.host ∧ t.status.busy = false := by
  rcases completeLatched_cases s with ⟨i, -, hx⟩ | hx <;> rw [hx] at h
  · exact exec_finishes h
  · cases h
    exact ⟨rfl, rfl⟩

/-- The engine's turn makes no work, and it does the pending completion (spec/60_exceptions.md R87). -/
theorem engineTurn_work {s t : State} (hr : s.rstN = true) (h : engineTurn s = .next t) :
    t.work ≤ s.work ∧ (s.status.busy = true → t.work ≤ s.work - 1) := by
  unfold engineTurn at h
  rw [hr, Bool.true_and] at h
  split_ifs at h with hb
  · obtain ⟨hhost, hidle⟩ := completeLatched_finishes h
    simp [State.work, hhost, hidle, hb]
  · cases h
    exact ⟨le_rfl, fun hb' => absurd hb' hb⟩

/-- The host's turn with `rst_n` high makes no work, and it does some unless a command is pending or none is left: a
transaction starts at most one command, and WAIT ends when idle (spec/30_encoding.md R58). -/
theorem hostTurn_work {s t : State} (hr : s.rstN = true) (h : hostTurn s = .next t) :
    t.work ≤ s.work ∧ (s.status.busy = false → t.work ≤ s.work - 1) := by
  have hone := Bool.toNat_le t.status.busy
  match hh : s.host with
  | [] =>
    cases (hostTurn_nil s hh).symm.trans h
    exact ⟨le_rfl, fun hb => by simp [State.work, hh, hb]⟩
  | .txn op :: rest =>
    obtain ⟨u, r, hu, he⟩ := transact_cases op (s.setHost rest)
    cases ((hostTurn_txn s op rest hr hh).trans hu).symm.trans h
    have hhost : t.host = rest := writeEffect_host he
    simp only [State.work, hh, hhost, List.length_cons]
    omega
  | .wait :: rest =>
    cases (hostTurn_wait s rest hr hh).symm.trans h
    cases hb : s.status.busy with
    | true => exact ⟨by simp [State.work, poll, hb], nofun⟩
    | false =>
      have hleft : (poll rest s).work = 2 * rest.length := by simp [State.work, poll, hb]
      rw [hleft, State.work, hh, List.length_cons]
      omega

theorem defaultTurn_work {s t : State} (hr : s.rstN = true) (h : defaultTurn s = .next t) : t.work ≤ s.work - 1 := by
  rw [defaultTurn, if_neg (by simp [hr])] at h
  split_ifs at h with hb
  · exact (engineTurn_work hr h).2 hb
  · exact (hostTurn_work hr h).2 (by simpa using hb)

theorem pinFree_cons_iff (t : Turn) (ts : List Turn) :
    pinFree (t :: ts) = true ↔ (t = .host ∨ t = .engine) ∧ pinFree ts = true := by
  simp [pinFree]

/-- Scheduled turns and work: what is left of a run (log 1). -/
def State.turnsLeft (s : State) : Nat := s.schedule.length + s.work

/-- With `rst_n` high and no edge scheduled, each step uses up a turn while one is left. -/
theorem step_turnsLeft {s : State} (hr : s.rstN = true) (hp : pinFree s.schedule = true) :
    ∃ t, step s = .next t ∧ t.rstN = true ∧ pinFree t.schedule = true ∧ t.turnsLeft ≤ s.turnsLeft - 1 := by
  cases hs : s.schedule with
  | nil =>
    obtain ⟨t, ht, hpin, hts⟩ := defaultTurn_keeps s
    have hwork := defaultTurn_work hr ht
    refine ⟨t, (step_nil s hs).trans ht, hpin.trans hr, hts ▸ hp, ?_⟩
    rw [State.turnsLeft, State.turnsLeft, hts, hs, List.length_nil]
    omega
  | cons tn ts =>
    rw [hs, pinFree_cons_iff] at hp
    obtain ⟨htn, hpts⟩ := hp
    obtain ⟨t, ht, hpin, hts⟩ := takeTurn_keeps tn (s.setSchedule ts) fun _ => hr
    have hwork : t.work ≤ s.work := by
      rcases htn with rfl | rfl
      · exact (hostTurn_work (s := s.setSchedule ts) hr ht).1
      · exact (engineTurn_work (s := s.setSchedule ts) hr ht).1
    refine ⟨t, (step_cons s tn ts hs).trans ht, ?_, hts ▸ hpts, ?_⟩
    · rcases htn with rfl | rfl <;> exact hpin.trans hr
    · rw [State.turnsLeft, State.turnsLeft, hts, setSchedule_schedule, hs, List.length_cons]
      omega

/-- A run at least as long as the turns left reaches its end (spec/70_reset_and_hazards.md R110, R111). -/
theorem run_finishes (k : Nat) : ∀ s : State, s.rstN = true → pinFree s.schedule = true → s.turnsLeft ≤ k →
    ∃ t, core.run k s = .next t ∧ t.finished = true := by
  induction k with
  | zero =>
    intro s _ _ hk
    exact ⟨s, rfl, finished_of_no_work (Nat.add_eq_zero_iff.1 (Nat.le_zero.1 hk)).2⟩
  | succ k ih =>
    intro s hr hp hk
    obtain ⟨t, ht, hrt, hpt, hleft⟩ := step_turnsLeft hr hp
    obtain ⟨u, hu, hfin⟩ := ih t hrt hpt (by omega)
    exact ⟨u, (run_succ k ht).trans hu, hfin⟩

/-! ## The draw of the unspecified bytes -/

/-- The state with another draw of the unspecified RAM bytes (spec/93_implementation_defined.md U1; log 2). -/
def State.withDraw (s : State) (n : Nat) : State := { s with draw := n }

@[simp] theorem withDraw_params (s : State) (n : Nat) : (s.withDraw n).params = s.params := rfl
@[simp] theorem withDraw_ctrl (s : State) (n : Nat) : (s.withDraw n).ctrl = s.ctrl := rfl
@[simp] theorem withDraw_keylen (s : State) (n : Nat) : (s.withDraw n).keylen = s.keylen := rfl
@[simp] theorem withDraw_fullcode (s : State) (n : Nat) : (s.withDraw n).fullcode = s.fullcode := rfl
@[simp] theorem withDraw_blen (s : State) (n : Nat) : (s.withDraw n).blen = s.blen := rfl
@[simp] theorem withDraw_tlen (s : State) (n : Nat) : (s.withDraw n).tlen = s.tlen := rfl
@[simp] theorem withDraw_mem (s : State) (n : Nat) : (s.withDraw n).mem = s.mem := rfl

/-- A written byte does not depend on the draw (spec/10_state.md R32). -/
theorem ram_withDraw {s : State} {a : Nat} (n : Nat) (h : (s.mem.get? a).isSome = true) :
    (s.withDraw n).ram a = s.ram a := by
  obtain ⟨b, hb⟩ := Option.isSome_iff_exists.1 h
  simp only [State.ram, withDraw_mem, hb, Option.getD_some]

/-- Written bytes one behind the other do not depend on the draw. -/
theorem ramList_withDraw {s : State} {a k : Nat} (n : Nat)
    (h : ∀ b ∈ (List.range k).map (a + ·), (s.mem.get? b).isSome = true) :
    (s.withDraw n).ramList a k = s.ramList a k :=
  List.map_congr_left fun _ hi => ram_withDraw n (h _ (List.mem_map_of_mem hi))

/-- The full-code function reads bytes of its algorithm's digest alone (spec/41_truncation.md R72). -/
theorem fullCode_congr_digest {a : BitVec 3} {strict : Bool} {keylen : Word} {d d' : Nat → Byte}
    (h : ∀ i < (digestLength a).getD 0, d' i = d i) : fullCode a strict keylen d' = fullCode a strict keylen d := by
  rcases Nat.lt_or_ge 4 a.toNat with hbig | hle
  · rw [fullCode_unsupportedAlgorithm hbig, fullCode_unsupportedAlgorithm hbig]
  · obtain ⟨len, hl⟩ := mem_algorithms a hle
    obtain ⟨hlen, -, -⟩ := len_of_mem_algorithms a len hl
    rw [digestLength_of_mem a len hl, Option.getD_some] at h
    exact fullCode_congr hl (by rw [h (len - 1) (by omega)]) fun i hi hfit => h _ (by omega)

theorem fullCode_withDraw {s : State} {a : BitVec 3} {strict : Bool} {keylen : Word} (n : Nat)
    (h : ∀ b ∈ (List.range ((digestLength a).getD 0)).map (Window.digest.base + ·), (s.mem.get? b).isSome = true) :
    fullCode a strict keylen (s.withDraw n).digestByte = fullCode a strict keylen s.digestByte :=
  fullCode_congr_digest fun _ hi => ram_withDraw n (h _ (List.mem_map_of_mem (List.mem_range.2 hi)))

theorem inputsWritten_iff (i : Instr) (s : State) :
    inputsWritten i s = true ↔ ∀ a ∈ inputBytes i s, (s.mem.get? a).isSome = true := List.all_eq_true

/-- With its inputs written, a command has the same outcome at every draw (spec/70_reset_and_hazards.md R104). -/
theorem outcome_withDraw {i : Instr} {s : State} (n : Nat)
    (h : ∀ a ∈ inputBytes i s, (s.mem.get? a).isSome = true) :
    outcome i (s.withDraw n) = (outcome i s).map (·.withDraw n) := by
  cases i with
  | nop | steam | sreset => rfl
  | b32enc =>
    have hread : (s.withDraw n).bbufBytes = s.bbufBytes := ramList_withDraw n h
    simp only [outcome, performB32enc, withDraw_blen, withDraw_params, hread]
    split_ifs <;> rfl
  | b32dec =>
    have hread : (s.withDraw n).tbufText = s.tbufText := ramList_withDraw n h
    simp only [outcome, performB32dec, withDraw_tlen, withDraw_params, hread]
    split_ifs
    · rfl
    · cases base32Decode s.tbufText <;> rfl
  | trunc =>
    simp only [outcome, performTrunc, withDraw_ctrl, withDraw_keylen, fullCode_withDraw n h]
    cases fullCode s.ctrl.alg s.ctrl.strict s.keylen s.digestByte <;> rfl
  | decimal =>
    simp only [outcome, performDecimal, withDraw_ctrl, withDraw_fullcode]
    cases decimalChars s.fullcode s.ctrl.digits <;> rfl
  | hotp =>
    simp only [outcome, performHotp, withDraw_ctrl, withDraw_keylen, fullCode_withDraw n h]
    cases fullCode s.ctrl.alg s.ctrl.strict s.keylen s.digestByte with
    | error e => rfl
    | ok r => dsimp only; cases decimalChars r.2 s.ctrl.digits <;> rfl
  | steamcode =>
    simp only [outcome, performSteamcode, withDraw_ctrl, withDraw_keylen, fullCode_withDraw (a := 0) n h]
    cases fullCode 0 s.ctrl.strict s.keylen s.digestByte <;> rfl

/-- Completing and choosing the draw go in either order. -/
theorem complete_withDraw {r : Except ErrorKind State} {s t : State} (n : Nat) (h : complete r s = .next t) :
    complete (r.map (·.withDraw n)) (s.withDraw n) = .next (t.withDraw n) := by
  cases r <;> cases h <;> rfl

/-- With its inputs written, a command's step is the same at every draw (spec/70_reset_and_hazards.md R104). -/
theorem exec_withDraw {i : Instr} {s t : State} (n : Nat) (hw : inputsWritten i s = true) (h : exec i s = .next t) :
    exec i (s.withDraw n) = .next (t.withDraw n) := by
  by_cases hi : i = .sreset
  · subst hi
    cases h
    rfl
  · rw [exec_eq_complete i _ hi] at h ⊢
    rw [outcome_withDraw n ((inputsWritten_iff i s).1 hw)]
    exact complete_withDraw n h

/-! ## Writes while BUSY -/

/-- While BUSY, a write to a RAM window is dropped (spec/70_reset_and_hazards.md R107). -/
theorem writeWindow_busy (bs : List Byte) {s : State} {w : Window} (hw : w ≠ .code) (i : Nat)
    (hb : s.status.busy = true) : writeWindow bs s w i = dropWrite s := by
  cases w with
  | code => exact absurd rfl hw
  | digest => exact storeInput_busy _ _ hb
  | bbuf => exact storeInput_busy _ _ hb
  | tbuf => exact storeInput_busy _ _ hb

/-- While BUSY, a write to an input register or a command word is dropped (spec/70_reset_and_hazards.md R107). -/
theorem writeReg_busy {v : Word} {s : State} {r : Reg} (hr : r ∈ [Reg.ctrl, .cmd, .keylen, .fullcode, .blen, .tlen])
    (hv : r = .cmd → v ≠ 0x000000FF) (hb : s.status.busy = true) : writeReg v s r = .next (dropWrite s) := by
  have hdrop : ∀ stored, storeInput stored s = dropWrite s := fun stored => storeInput_busy stored s hb
  cases r
  case cmd => rw [writeReg_cmd v s (hv rfl), hdrop]
  case ctrl | keylen | fullcode | blen | tlen => rw [writeReg, hdrop]
  case id | version | status | offset | codelen | params => exact absurd hr (by decide)

/-- The offsets of the input registers and of CMD (spec/20_memory.md R35). -/
theorem regAt_input {a : Offset} (h : a ∈ [(0x008 : Offset), 0x00C, 0x014, 0x01C, 0x024, 0x028]) :
    ∃ r, regAt a.toNat = some r ∧ r ∈ [Reg.ctrl, .cmd, .keylen, .fullcode, .blen, .tlen] ∧ (r = .cmd → a = 0x00C) := by
  simp only [List.mem_cons, List.not_mem_nil, or_false] at h
  rcases h with rfl | rfl | rfl | rfl | rfl | rfl
  · exact ⟨.ctrl, rfl, by decide, nofun⟩
  · exact ⟨.cmd, rfl, by decide, fun _ => rfl⟩
  · exact ⟨.keylen, rfl, by decide, nofun⟩
  · exact ⟨.fullcode, rfl, by decide, nofun⟩
  · exact ⟨.blen, rfl, by decide, nofun⟩
  · exact ⟨.tlen, rfl, by decide, nofun⟩

/-- A legal access from 0x040 on addresses DIGEST, BBUF or TBUF (spec/20_memory.md R35). -/
theorem target_ram {p : Params} {a : Nat} {n : Size} (hp : p.wellFormed = true) (h : LegalAccess p a n.bytes)
    (ha : 0x040 ≤ a) : ∃ w i, w ≠ .code ∧ target p a n.bytes = some (.window w i) := by
  obtain ⟨tgt, htgt⟩ := Option.isSome_iff_exists.1 ((target_isSome_iff p a n.bytes hp (size_pos n)).2 h)
  cases tgt with
  | reg r =>
    obtain ⟨hlt, -⟩ := regAt_legal (target_reg p a n.bytes r htgt).1
    omega
  | window w i =>
    refine ⟨w, i, ?_, htgt⟩
    rintro rfl
    have hn := size_pos n
    have hbound := target_bound p a n.bytes .code i htgt
    simp only [Window.size, Window.base] at hbound
    omega

end Sys2Proof.Machine

open Sys2Proof Sys2Proof.Machine

/-- Settles O55: the turn taken sets the pin to the level the rest of the schedule is judged from. -/
theorem quietStepsStayQuiet : Obligations.QuietStepsStayQuiet := by
  intro s hq
  cases hs : s.schedule with
  | nil =>
    obtain ⟨t, ht, -, hts⟩ := defaultTurn_keeps s
    refine ⟨t, (step_nil s hs).trans ht, ?_⟩
    rw [hts, hs, quietInReset]
  | cons tn ts =>
    rw [hs, quietInReset_cons_iff] at hq
    obtain ⟨hhost, hrest⟩ := hq
    obtain ⟨t, ht, hpin, hts⟩ := takeTurn_keeps tn (s.setSchedule ts) hhost
    refine ⟨t, (step_cons s tn ts hs).trans ht, ?_⟩
    rwa [hpin, hts]

/-- Settles O36: a written byte reads the same at every draw, and no command reads another. -/
theorem writtenInputsMakeTheDrawIrrelevant : Obligations.WrittenInputsMakeTheDrawIrrelevant :=
  fun _ _ _ draw => exec_withDraw draw

/-- Settles O45: the access is legal, so it addresses a register or a window, and what the write does there is known. -/
theorem busyWritesAreDropped : Obligations.BusyWritesAreDropped := by
  intro s a n v hp hb hlegal
  have hbusy : (s.answered (.write .okay)).status.busy = true := hb
  refine ⟨fun ha hv => ?dropped, fun ha => ?status, fun ha hv => ?sreset, readOnlyWritesAreIgnored s a n v hlegal⟩
  case dropped =>
    rcases ha with hreg | hram
    · obtain ⟨r, hat, hinput, hcmd⟩ := regAt_input hreg
      obtain rfl := size_eq_word_of_below hlegal (regAt_legal hat).1
      rw [step_write_reg s v r hat, writeReg_busy hinput (fun h => hv (hcmd h)) hbusy]
      rfl
    · obtain ⟨w, i, hw, htgt⟩ := target_ram hp hlegal hram
      rw [step_write s a n v _ htgt, writeTarget, writeWindow_busy _ hw i hbusy]
      rfl
  case status =>
    subst ha
    obtain rfl := size_eq_word_of_below hlegal (by decide)
    rw [step_write_reg s v .status rfl, writeReg, acknowledge, clearStatus, hbusy]
    rfl
  case sreset =>
    subst ha hv
    obtain rfl := size_eq_word_of_below hlegal (by decide)
    exact step_write_sreset s

/-- Settles O52: a step answers a next state but for the host's turn in reset, which faults. -/
theorem onlyATransactionInResetStops : Obligations.OnlyATransactionInResetStops := by
  intro s
  refine ⟨fun f => ⟨fun h => ?_, ?_⟩, fun r h => ?_⟩
  · rcases step_cases s with ⟨t, -, ht, -⟩ | ⟨hf, hr, hh, hs⟩
    · cases ht.symm.trans h
    · cases hf.symm.trans h
      exact ⟨rfl, hr, hs, hh⟩
  · rintro ⟨rfl, hr, ⟨ts, hs⟩, hh⟩
    exact (step_host s ts hs).trans (hostTurn_inReset (s.setSchedule ts) hr hh)
  · rcases step_cases s with ⟨t, -, ht, -⟩ | ⟨hf, -⟩
    · cases ht.symm.trans h
    · cases hf.symm.trans h

/-- Settles O53: every step of a quiet schedule answers a next state with a quiet schedule. -/
theorem quietHostRunsSafely : Obligations.QuietHostRunsSafely := by
  intro s hq k r hf
  obtain ⟨t, ht, -⟩ := run_keeps quietStepsStayQuiet k s hq
  cases ht.symm.trans hf

/-- Settles O54: each step uses up a turn, and the bound is at least the turns the run has. -/
theorem everyRunEnds : Obligations.EveryRunEnds := by
  intro s hr hp
  have hone := Bool.toNat_le s.status.busy
  refine run_finishes _ s hr hp ?_
  rw [State.turnsLeft, State.work]
  omega

/-- Settles O15: either edge is a soft reset with the pin at its new level, and the engine waits while it is low. -/
theorem hardwareResetGivesTheResetState : Obligations.HardwareResetGivesTheResetState := by
  intro s rest
  refine ⟨fun hr hs => ?falls, fun hr hs => step_engine_idle s rest hs (.inl hr), fun hr hs => ?rises⟩
  case falls =>
    exact ⟨_, step_resetLow s rest hs hr, rfl, rfl, registersReset_assertReset _, rfl, rfl, rfl, rfl, rfl⟩
  case rises =>
    exact ⟨_, step_resetHigh s rest hs hr, registersReset_releaseReset _, rfl, rfl, rfl, rfl, rfl, rfl⟩

end
